-- ==== Sys2Proof/Word.lean ====
section
/-! DEFINITION. The machine's word, byte and register-number types (00_scope.md R8, R10). -/

namespace Sys2Proof

/-- A byte of program or data memory (20_memory.md R35). -/
abbrev Byte := BitVec 8

/-- A 16-bit pattern: a register, the program counter, an instruction word, a data word (00_scope.md R10). -/
abbrev Word := BitVec 16

/-- A general register's number, 0 to 7 (10_state.md R17). -/
abbrev Reg := Fin 8

end Sys2Proof
end

