-- ==== Sys2Proof/Config.lean ====
section
/-! DEFINITION. What is fixed for the machine: the parameters of 00_scope.md R8, the closed enumeration of the 22
instruction kinds (10_state.md R26, 45_fetch_execute.md R98), the latency table and the one free value, EXP_NEG. -/

namespace Sys2Proof

/-- `IMEM_SIZE` (00_scope.md R8). -/
abbrev Config.imemSize : Nat := 65536

/-- `DMEM_SIZE` (00_scope.md R8). -/
abbrev Config.dmemSize : Nat := 65536

/-- `LAT_DEFAULT` (00_scope.md R8). -/
abbrev Config.defaultLatency : Nat := 1

/-- `EXP_NEG(a, n)`: what EXP writes for base `a` and a negative exponent `n`. DESIGN CHOICE (safe, log 1): a free
value, an uninterpreted function of the two operands, as 40_arithmetic.md R73 allows; nothing can be proved of its
values. The spec's reference value is `expNegReference` (Machine/Arith.lean). -/
opaque Config.expNeg : Int → Int → Word

/-- The 22 instruction kinds, which are also the keys of the execution counters and the content of a trace event, in
the order of the table of 10_state.md R26. -/
inductive Mnemonic where
  | add | sub | and | nor | div | mul | mod | exp
  | lw | sw
  | liz | lis | lui
  | bp | bn | bx | bz
  | jr | jalr | j
  | halt | put
deriving DecidableEq, Repr

/-- Every instruction kind once, in the order of the table of 10_state.md R26 and of the output record
(60_exceptions.md R114). -/
def Mnemonic.all : List Mnemonic :=
  [.add, .sub, .and, .nor, .div, .mul, .mod, .exp, .lw, .sw, .liz, .lis, .lui, .bp, .bn, .bx, .bz, .jr, .jalr, .j,
   .halt, .put]

/-- The place of a kind's counter among the 22 (10_state.md R26). -/
def Mnemonic.index : Mnemonic → Fin 22
  | .add => 0 | .sub => 1 | .and => 2 | .nor => 3 | .div => 4 | .mul => 5 | .mod => 6 | .exp => 7
  | .lw => 8 | .sw => 9 | .liz => 10 | .lis => 11 | .lui => 12
  | .bp => 13 | .bn => 14 | .bx => 15 | .bz => 16
  | .jr => 17 | .jalr => 18 | .j => 19 | .halt => 20 | .put => 21

/-- The assembler's name of a kind (30_encoding.md R62). -/
def Mnemonic.name : Mnemonic → String
  | .add => "ADD" | .sub => "SUB" | .and => "AND" | .nor => "NOR"
  | .div => "DIV" | .mul => "MUL" | .mod => "MOD" | .exp => "EXP"
  | .lw => "LW" | .sw => "SW" | .liz => "LIZ" | .lis => "LIS" | .lui => "LUI"
  | .bp => "BP" | .bn => "BN" | .bx => "BX" | .bz => "BZ"
  | .jr => "JR" | .jalr => "JALR" | .j => "J" | .halt => "HALT" | .put => "PUT"

/-- The key of a kind's counter in the output record: JALR's is `jal` (10_state.md R26, 90_conflicts.md C3). -/
def Mnemonic.key : Mnemonic → String
  | .add => "add" | .sub => "sub" | .and => "and" | .nor => "nor"
  | .div => "div" | .mul => "mul" | .mod => "mod" | .exp => "exp"
  | .lw => "lw" | .sw => "sw" | .liz => "liz" | .lis => "lis" | .lui => "lui"
  | .bp => "bp" | .bn => "bn" | .bx => "bx" | .bz => "bz"
  | .jr => "jr" | .jalr => "jal" | .j => "j" | .halt => "halt" | .put => "put"

/-- The latency table: one cycle cost per arithmetic and logic opcode (10_state.md R28). -/
structure Latencies where
  add : Nat
  sub : Nat
  and : Nat
  nor : Nat
  div : Nat
  mul : Nat
  mod : Nat
  exp : Nat
deriving DecidableEq, Repr

/-- The latency table when nothing is configured: every entry 1 (10_state.md R28, 70_reset_and_hazards.md R123). -/
def Latencies.default : Latencies :=
  ⟨Config.defaultLatency, Config.defaultLatency, Config.defaultLatency, Config.defaultLatency,
   Config.defaultLatency, Config.defaultLatency, Config.defaultLatency, Config.defaultLatency⟩

/-- The latency configuration the host supplies before a run: eight optional integers (70_reset_and_hazards.md R123).
A missing field is `none`. -/
structure LatencyConfig where
  add : Option Int := none
  sub : Option Int := none
  and : Option Int := none
  nor : Option Int := none
  div : Option Int := none
  mul : Option Int := none
  mod : Option Int := none
  exp : Option Int := none
deriving DecidableEq, Repr

end Sys2Proof
end

