-- ==== Sys2Proof/Syntax.lean ====
section
/-! DEFINITION. The instructions, one constructor per row of spec/opcode_table.json. A constructor carries the fields
its instruction uses (30_encoding.md R55) and nothing else: the ignored bits have no place in it, and every value of a
field's type is a legal operand. -/

namespace Sys2Proof

/-- The 22 instructions (30_encoding.md R58). -/
inductive Instr where
  /-- `rd = rs + rt` (R66). -/
  | add (rd rs rt : Reg)
  /-- `rd = rs - rt` (R67). -/
  | sub (rd rs rt : Reg)
  /-- `rd = rs & rt` (R68). -/
  | and (rd rs rt : Reg)
  /-- `rd = ~(rs | rt)` (R69). -/
  | nor (rd rs rt : Reg)
  /-- `rd = rs / rt`, truncating (R70). -/
  | div (rd rs rt : Reg)
  /-- `rd = rs * rt`, low 16 bits (R71). -/
  | mul (rd rs rt : Reg)
  /-- `rd = rs % rt` (R72). -/
  | mod (rd rs rt : Reg)
  /-- `rd = rs` to the power `rt` (R73). -/
  | exp (rd rs rt : Reg)
  /-- Load word: `rd` from the address in `rs` (R75). -/
  | lw (rd rs : Reg)
  /-- Store word: `rt` to the address in `rs` (R76). -/
  | sw (rs rt : Reg)
  /-- Jump to the address in `rs` (R87). -/
  | jr (rs : Reg)
  /-- Stop the run (R91). -/
  | halt
  /-- Output `rs` (R92). -/
  | put (rs : Reg)
  /-- Load zero-extended immediate (R78). -/
  | liz (rd : Reg) (imm8 : BitVec 8)
  /-- Load sign-extended immediate (R79). -/
  | lis (rd : Reg) (imm8 : BitVec 8)
  /-- Load upper byte (R80). -/
  | lui (rd : Reg) (imm8 : BitVec 8)
  /-- Jump to the address in `rs`, link in `rd` (R88). -/
  | jalr (rd rs : Reg)
  /-- Branch if `rd` is positive (R83). -/
  | bp (rd : Reg) (imm8 : BitVec 8)
  /-- Branch if `rd` is negative (R84). -/
  | bn (rd : Reg) (imm8 : BitVec 8)
  /-- Branch if `rd` is not zero (R85). -/
  | bx (rd : Reg) (imm8 : BitVec 8)
  /-- Branch if `rd` is zero (R86). -/
  | bz (rd : Reg) (imm8 : BitVec 8)
  /-- Jump within the page (R89). -/
  | j (imm11 : BitVec 11)
deriving DecidableEq, Repr

/-- The kind of an instruction (10_state.md R26). -/
def Instr.mnemonic : Instr → Mnemonic
  | .add _ _ _ => .add
  | .sub _ _ _ => .sub
  | .and _ _ _ => .and
  | .nor _ _ _ => .nor
  | .div _ _ _ => .div
  | .mul _ _ _ => .mul
  | .mod _ _ _ => .mod
  | .exp _ _ _ => .exp
  | .lw _ _ => .lw
  | .sw _ _ => .sw
  | .jr _ => .jr
  | .halt => .halt
  | .put _ => .put
  | .liz _ _ => .liz
  | .lis _ _ => .lis
  | .lui _ _ => .lui
  | .jalr _ _ => .jalr
  | .bp _ _ => .bp
  | .bn _ _ => .bn
  | .bx _ _ => .bx
  | .bz _ _ => .bz
  | .j _ => .j

/-- The registers an instruction reads (10_state.md R18). -/
def Instr.readRegs : Instr → List Reg
  | .add _ rs rt | .sub _ rs rt | .and _ rs rt | .nor _ rs rt => [rs, rt]
  | .div _ rs rt | .mul _ rs rt | .mod _ rs rt | .exp _ rs rt => [rs, rt]
  | .lw _ rs => [rs]
  | .sw rs rt => [rs, rt]
  | .jr rs => [rs]
  | .halt => []
  | .put rs => [rs]
  | .liz _ _ => []
  | .lis _ _ => []
  | .lui rd _ => [rd]
  | .jalr _ rs => [rs]
  | .bp rd _ | .bn rd _ | .bx rd _ | .bz rd _ => [rd]
  | .j _ => []

/-- The register an instruction names as its destination, if any (10_state.md R18). DIV, MOD and LW leave it alone
when they are fatal. -/
def Instr.writtenReg : Instr → Option Reg
  | .add rd _ _ | .sub rd _ _ | .and rd _ _ | .nor rd _ _ => some rd
  | .div rd _ _ | .mul rd _ _ | .mod rd _ _ | .exp rd _ _ => some rd
  | .lw rd _ => some rd
  | .sw _ _ => none
  | .jr _ => none
  | .halt => none
  | .put _ => none
  | .liz rd _ => some rd
  | .lis rd _ => some rd
  | .lui rd _ => some rd
  | .jalr rd _ => some rd
  | .bp _ _ | .bn _ _ | .bx _ _ | .bz _ _ => none
  | .j _ => none

end Sys2Proof
end

