-- ==== Sys2Proof/WellFormed.lean ====
section
/-! DEFINITION. What is a legal instruction. `Instr`'s fields are bounded by their types, so what can be ill-formed is
an ASSEMBLER LINE (30_encoding.md R62): a mnemonic with a list of operands. `AsmLine.assemble` checks one and gives its
instruction; `Instr.line` writes an instruction as a line. -/

namespace Sys2Proof

/-- An operand as written: a register `r<n>` or a number, both unbounded until checked (30_encoding.md R62). -/
inductive Operand where
  | reg (n : Nat)
  | imm (n : Nat)
deriving DecidableEq, Repr

/-- One assembler line (30_encoding.md R62). -/
structure AsmLine where
  mnemonic : Mnemonic
  operands : List Operand
deriving DecidableEq, Repr

/-- Why a line is refused. -/
inductive AsmError where
  /-- The number or the order of registers and numbers is not the mnemonic's. -/
  | wrongOperands (m : Mnemonic)
  /-- There is no register of that number: the fields have 3 bits (30_encoding.md R52). -/
  | badRegister (n : Nat)
  /-- The number does not fit in the immediate field (30_encoding.md R53, R54). -/
  | immediateTooWide (bits n : Nat)
deriving DecidableEq, Repr

/-- A register operand, 0 to 7 (10_state.md R17). -/
def asmReg (n : Nat) : Except AsmError Reg :=
  if h : n < 8 then .ok ⟨n, h⟩ else .error (.badRegister n)

/-- An immediate operand: "numbers giving the encoded field value" (30_encoding.md R62). -/
def asmImm (bits n : Nat) : Except AsmError (BitVec bits) :=
  if n < 2 ^ bits then .ok (BitVec.ofNat bits n) else .error (.immediateTooWide bits n)

/-- A line of the shape `rd,rs,rt`. -/
def asmThree (f : Reg → Reg → Reg → Instr) (a b c : Nat) : Except AsmError Instr := do
  return f (← asmReg a) (← asmReg b) (← asmReg c)

/-- A line of two registers. -/
def asmTwo (f : Reg → Reg → Instr) (a b : Nat) : Except AsmError Instr := do
  return f (← asmReg a) (← asmReg b)

/-- A line of the shape `rd,imm8`. -/
def asmRegImm (f : Reg → BitVec 8 → Instr) (a n : Nat) : Except AsmError Instr := do
  return f (← asmReg a) (← asmImm 8 n)

/-- The check, and the instruction of a line that passes it: the syntax table of 30_encoding.md R62. -/
def AsmLine.assemble : AsmLine → Except AsmError Instr
  | ⟨.add, [.reg a, .reg b, .reg c]⟩ => asmThree .add a b c
  | ⟨.sub, [.reg a, .reg b, .reg c]⟩ => asmThree .sub a b c
  | ⟨.and, [.reg a, .reg b, .reg c]⟩ => asmThree .and a b c
  | ⟨.nor, [.reg a, .reg b, .reg c]⟩ => asmThree .nor a b c
  | ⟨.div, [.reg a, .reg b, .reg c]⟩ => asmThree .div a b c
  | ⟨.mul, [.reg a, .reg b, .reg c]⟩ => asmThree .mul a b c
  | ⟨.mod, [.reg a, .reg b, .reg c]⟩ => asmThree .mod a b c
  | ⟨.exp, [.reg a, .reg b, .reg c]⟩ => asmThree .exp a b c
  | ⟨.lw, [.reg a, .reg b]⟩ => asmTwo .lw a b
  | ⟨.sw, [.reg a, .reg b]⟩ => asmTwo .sw a b
  | ⟨.jr, [.reg a]⟩ => (asmReg a).map .jr
  | ⟨.halt, []⟩ => .ok .halt
  | ⟨.put, [.reg a]⟩ => (asmReg a).map .put
  | ⟨.liz, [.reg a, .imm n]⟩ => asmRegImm .liz a n
  | ⟨.lis, [.reg a, .imm n]⟩ => asmRegImm .lis a n
  | ⟨.lui, [.reg a, .imm n]⟩ => asmRegImm .lui a n
  | ⟨.jalr, [.reg a, .reg b]⟩ => asmTwo .jalr a b
  | ⟨.bp, [.reg a, .imm n]⟩ => asmRegImm .bp a n
  | ⟨.bn, [.reg a, .imm n]⟩ => asmRegImm .bn a n
  | ⟨.bx, [.reg a, .imm n]⟩ => asmRegImm .bx a n
  | ⟨.bz, [.reg a, .imm n]⟩ => asmRegImm .bz a n
  | ⟨.j, [.imm n]⟩ => (asmImm 11 n).map .j
  | ⟨m, _⟩ => .error (.wrongOperands m)

/-- A line is well formed when the check accepts it. -/
def AsmLine.wellFormed (l : AsmLine) : Bool :=
  match l.assemble with
  | .ok _ => true
  | .error _ => false

/-- The operands of an instruction "in field order `rd`, `rs`, `rt`, leaving out fields the instruction ignores"
(30_encoding.md R62). -/
def Instr.line : Instr → AsmLine
  | .add a b c => ⟨.add, [.reg a, .reg b, .reg c]⟩
  | .sub a b c => ⟨.sub, [.reg a, .reg b, .reg c]⟩
  | .and a b c => ⟨.and, [.reg a, .reg b, .reg c]⟩
  | .nor a b c => ⟨.nor, [.reg a, .reg b, .reg c]⟩
  | .div a b c => ⟨.div, [.reg a, .reg b, .reg c]⟩
  | .mul a b c => ⟨.mul, [.reg a, .reg b, .reg c]⟩
  | .mod a b c => ⟨.mod, [.reg a, .reg b, .reg c]⟩
  | .exp a b c => ⟨.exp, [.reg a, .reg b, .reg c]⟩
  | .lw a b => ⟨.lw, [.reg a, .reg b]⟩
  | .sw a b => ⟨.sw, [.reg a, .reg b]⟩
  | .jr a => ⟨.jr, [.reg a]⟩
  | .halt => ⟨.halt, []⟩
  | .put a => ⟨.put, [.reg a]⟩
  | .liz a n => ⟨.liz, [.reg a, .imm n.toNat]⟩
  | .lis a n => ⟨.lis, [.reg a, .imm n.toNat]⟩
  | .lui a n => ⟨.lui, [.reg a, .imm n.toNat]⟩
  | .jalr a b => ⟨.jalr, [.reg a, .reg b]⟩
  | .bp a n => ⟨.bp, [.reg a, .imm n.toNat]⟩
  | .bn a n => ⟨.bn, [.reg a, .imm n.toNat]⟩
  | .bx a n => ⟨.bx, [.reg a, .imm n.toNat]⟩
  | .bz a n => ⟨.bz, [.reg a, .imm n.toNat]⟩
  | .j n => ⟨.j, [.imm n.toNat]⟩

/-- An instruction is well formed when its own line passes the check and gives it back. -/
abbrev Instr.WellFormed (i : Instr) : Prop := i.line.assemble = .ok i

/-- An operand as text: registers `r0` to `r7`, numbers in decimal (30_encoding.md R62). -/
def Operand.text : Operand → String
  | .reg n => "r" ++ toString n
  | .imm n => toString n

/-- Operands "separated by commas" (30_encoding.md R62). -/
def operandsText : List Operand → String
  | [] => ""
  | [o] => o.text
  | o :: os => o.text ++ "," ++ operandsText os

/-- A line as text: the mnemonic, then the operands (30_encoding.md R62). -/
def AsmLine.text (l : AsmLine) : String :=
  match l.operands with
  | [] => l.mnemonic.name
  | os => l.mnemonic.name ++ " " ++ operandsText os

end Sys2Proof
end

