-- ==== Sys2Proof/Decode.lean ====
section
/-! DEFINITION. Decoding, total on every word and every list of bytes, and after it the encoder. The opcode table
`Mnemonic.opcode` (30_encoding.md R58) serves both. -/

namespace Sys2Proof

/-- The three formats (30_encoding.md R52, R53, R54). -/
inductive Format where
  | r | i | ix
deriving DecidableEq, Repr

/-- Why a word is no instruction: its opcode is one of the ten that select none (30_encoding.md R60). -/
inductive DecodeError where
  | unknownOpcode (op : BitVec 5)
deriving DecidableEq, Repr

/-- Why a list of bytes gives no instruction. `truncated`: fewer than the two bytes of a word (30_encoding.md R51);
the machine never meets it, since a fetch reads two bytes. -/
inductive BytesError where
  | truncated
  | undecoded (e : DecodeError)
deriving DecidableEq, Repr

/-- The opcode map (30_encoding.md R58). -/
def Mnemonic.opcode : Mnemonic → BitVec 5
  | .add => 0x00 | .sub => 0x01 | .and => 0x02 | .nor => 0x03
  | .div => 0x04 | .mul => 0x05 | .mod => 0x06 | .exp => 0x07
  | .lw => 0x08 | .sw => 0x09
  | .jr => 0x0C | .halt => 0x0D | .put => 0x0E
  | .liz => 0x10 | .lis => 0x11 | .lui => 0x12 | .jalr => 0x13
  | .bp => 0x14 | .bn => 0x15 | .bx => 0x16 | .bz => 0x17
  | .j => 0x18

/-- The kind an opcode selects, if any (30_encoding.md R58, R60). -/
def Mnemonic.ofOpcode (op : BitVec 5) : Option Mnemonic := Mnemonic.all.find? (fun m => m.opcode == op)

/-- The format of a kind (30_encoding.md R58). -/
def Mnemonic.format : Mnemonic → Format
  | .add | .sub | .and | .nor | .div | .mul | .mod | .exp => .r
  | .lw | .sw | .jr | .jalr | .halt | .put => .r
  | .liz | .lis | .lui | .bp | .bn | .bx | .bz => .i
  | .j => .ix

/-- `op = w[15:11]` (30_encoding.md R51). -/
def opcodeField (w : Word) : BitVec 5 := w.extractLsb' 11 5

/-- `rd = w[10:8]` (30_encoding.md R52, R53). -/
def rdField (w : Word) : Reg := (w.extractLsb' 8 3).toFin

/-- `rs = w[7:5]` (30_encoding.md R52). -/
def rsField (w : Word) : Reg := (w.extractLsb' 5 3).toFin

/-- `rt = w[4:2]` (30_encoding.md R52). -/
def rtField (w : Word) : Reg := (w.extractLsb' 2 3).toFin

/-- `imm8 = w[7:0]` (30_encoding.md R53). -/
def imm8Field (w : Word) : BitVec 8 := w.extractLsb' 0 8

/-- `imm11 = w[10:0]` (30_encoding.md R54). -/
def imm11Field (w : Word) : BitVec 11 := w.extractLsb' 0 11

/-- The instruction of a kind with the fields of a word: the kind's used fields are read, the others are not looked
at (30_encoding.md R55, 45_fetch_execute.md R97). -/
def Mnemonic.decodeFields (w : Word) : Mnemonic → Instr
  | .add => .add (rdField w) (rsField w) (rtField w)
  | .sub => .sub (rdField w) (rsField w) (rtField w)
  | .and => .and (rdField w) (rsField w) (rtField w)
  | .nor => .nor (rdField w) (rsField w) (rtField w)
  | .div => .div (rdField w) (rsField w) (rtField w)
  | .mul => .mul (rdField w) (rsField w) (rtField w)
  | .mod => .mod (rdField w) (rsField w) (rtField w)
  | .exp => .exp (rdField w) (rsField w) (rtField w)
  | .lw => .lw (rdField w) (rsField w)
  | .sw => .sw (rsField w) (rtField w)
  | .jr => .jr (rsField w)
  | .halt => .halt
  | .put => .put (rsField w)
  | .liz => .liz (rdField w) (imm8Field w)
  | .lis => .lis (rdField w) (imm8Field w)
  | .lui => .lui (rdField w) (imm8Field w)
  | .jalr => .jalr (rdField w) (rsField w)
  | .bp => .bp (rdField w) (imm8Field w)
  | .bn => .bn (rdField w) (imm8Field w)
  | .bx => .bx (rdField w) (imm8Field w)
  | .bz => .bz (rdField w) (imm8Field w)
  | .j => .j (imm11Field w)

/-- Decode a word "by `op = w[15:11]` alone" (30_encoding.md R58); a word of an unused opcode is rejected by name
(R60). -/
def decodeWord (w : Word) : Except DecodeError Instr :=
  match Mnemonic.ofOpcode (opcodeField w) with
  | some m => .ok (m.decodeFields w)
  | none => .error (.unknownOpcode (opcodeField w))

/-- Decode the first word of a list of bytes, high byte first (20_memory.md R37), and give the rest back. -/
def decodeBytes : List Byte → Except BytesError (Instr × List Byte)
  | hi :: lo :: rest =>
    match decodeWord (hi ++ lo) with
    | .ok i => .ok (i, rest)
    | .error e => .error (.undecoded e)
  | _ => .error .truncated

/-- A field of a word: a value shifted to its place. -/
def placed {n : Nat} (v : BitVec n) (lo : Nat) : Word := v.setWidth 16 <<< lo

/-- The three bits of a register number. -/
def regBits (r : Reg) : BitVec 3 := BitVec.ofFin r

/-- The R-type word `op << 11 | rd << 8 | rs << 5 | rt << 2`, ignored bits 0 (30_encoding.md R59). -/
def encodeR (m : Mnemonic) (rd rs rt : Reg) : Word :=
  placed m.opcode 11 ||| placed (regBits rd) 8 ||| placed (regBits rs) 5 ||| placed (regBits rt) 2

/-- The I-type word `op << 11 | rd << 8 | imm8` (30_encoding.md R59). -/
def encodeI (m : Mnemonic) (rd : Reg) (imm8 : BitVec 8) : Word :=
  placed m.opcode 11 ||| placed (regBits rd) 8 ||| placed imm8 0

/-- The IX-type word `op << 11 | imm11` (30_encoding.md R59). -/
def encodeIX (m : Mnemonic) (imm11 : BitVec 11) : Word := placed m.opcode 11 ||| placed imm11 0

/-- The canonical word of an instruction: its fields in their places, the ignored bits 0 (30_encoding.md R59, R62). -/
def encodeWord : Instr → Word
  | .add rd rs rt => encodeR .add rd rs rt
  | .sub rd rs rt => encodeR .sub rd rs rt
  | .and rd rs rt => encodeR .and rd rs rt
  | .nor rd rs rt => encodeR .nor rd rs rt
  | .div rd rs rt => encodeR .div rd rs rt
  | .mul rd rs rt => encodeR .mul rd rs rt
  | .mod rd rs rt => encodeR .mod rd rs rt
  | .exp rd rs rt => encodeR .exp rd rs rt
  | .lw rd rs => encodeR .lw rd rs 0
  | .sw rs rt => encodeR .sw 0 rs rt
  | .jr rs => encodeR .jr 0 rs 0
  | .halt => encodeR .halt 0 0 0
  | .put rs => encodeR .put 0 rs 0
  | .liz rd imm8 => encodeI .liz rd imm8
  | .lis rd imm8 => encodeI .lis rd imm8
  | .lui rd imm8 => encodeI .lui rd imm8
  | .jalr rd rs => encodeR .jalr rd rs 0
  | .bp rd imm8 => encodeI .bp rd imm8
  | .bn rd imm8 => encodeI .bn rd imm8
  | .bx rd imm8 => encodeI .bx rd imm8
  | .bz rd imm8 => encodeI .bz rd imm8
  | .j imm11 => encodeIX .j imm11

/-- The two bytes of a word as program memory holds them, high byte first (20_memory.md R37). -/
def wordBytes (w : Word) : List Byte := [w.extractLsb' 8 8, w.extractLsb' 0 8]

/-- The words of an instruction as bytes: two of them (30_encoding.md R61). -/
def encode (i : Instr) : List Byte := wordBytes (encodeWord i)

/-- The bits a kind's decoding looks at: the complement of the column "bits ignored" of the table of
30_encoding.md R55. -/
def Mnemonic.usedMask : Mnemonic → Word
  | .add | .sub | .and | .nor | .div | .mul | .mod | .exp => 0xFFFC
  | .lw => 0xFFE0
  | .sw => 0xF8FC
  | .jr => 0xF8E0
  | .jalr => 0xFFE0
  | .halt => 0xF800
  | .put => 0xF8E0
  | .liz | .lis | .lui => 0xFFFF
  | .bp | .bn | .bx | .bz => 0xFFFF
  | .j => 0xFFFF

/-- The word the host numbers `w`, whose bits above `nbits` are 0. -/
def tableWord (nbits w : Nat) : Word := BitVec.ofNat 16 (w % 2 ^ nbits)

/-- What the decoder reads from the instruction the opcode table's numbering calls `w`: its bytes are laid out as
program memory holds them and given to `decodeBytes`. -/
def decodeTableWord (nbits w : Nat) : Option Instr :=
  match decodeBytes (wordBytes (tableWord nbits w)) with
  | .ok (i, _) => some i
  | .error _ => none

end Sys2Proof
end

