-- ==== Sys2Proof/Machine/State.lean ====
section
/-! DEFINITION. The whole state of the block as one record of plain data (10_state.md), the reset state
(10_state.md R34), and what a step can answer beside a next state. -/

namespace Sys2Proof.Machine

/-- A 65536-byte memory as the list of its bytes that are not 0x00, by rising address: an address not listed reads
0x00, the reset contents (10_state.md R34). -/
abbrev Memory := List Host.Cell

/-- The state of the fetch-execute loop (10_state.md R24). -/
inductive RunState where
  | running
  | terminated
deriving DecidableEq, Repr

/-- The termination reasons (60_exceptions.md R104). -/
inductive Reason where
  /-- The run is still RUNNING. -/
  | none
  /-- A HALT executed: the run completed. -/
  | halted
  /-- DIV with a zero divisor. -/
  | divideByZero
  /-- MOD with a zero divisor. -/
  | moduloByZero
  /-- LW or SW at an odd address. -/
  | unalignedAccess
  /-- A fetch at an odd `pc`. -/
  | fetchMisaligned
  /-- JR or JALR to 0xFFFF. -/
  | sentinelTarget
deriving DecidableEq, Repr

/-- What a diagnostic reports (45_fetch_execute.md R99; the text is the host's). -/
inductive Diag where
  /-- An unknown opcode and its address (44_system.md R93). -/
  | unknownOpcode (op : BitVec 5) (pc : Word)
  /-- A fetch at an odd address (45_fetch_execute.md R96). -/
  | fetchMisaligned (pc : Word)
  /-- A fatal condition of an instruction, or a SENTINEL_TARGET ending (45_fetch_execute.md R99). -/
  | fatal (r : Reason)
deriving DecidableEq, Repr

/-- An output event (00_scope.md R7, 10_state.md R32). -/
inductive Event where
  /-- The value PUT emits (44_system.md R92). -/
  | put (v : Word)
  /-- A dispatched instruction's mnemonic (45_fetch_execute.md R99). -/
  | trace (m : Mnemonic)
  /-- A report (45_fetch_execute.md R99). -/
  | diag (d : Diag)
deriving DecidableEq, Repr

/-- The state of the block, field by field as 10_state.md gives it. -/
structure State where
  /-- The general registers r0 to r7 (R17). -/
  x : Vector Word 8
  /-- The program counter (R19). -/
  pc : Word
  /-- Program memory (R30). -/
  imem : Memory
  /-- Data memory (R31). -/
  dmem : Memory
  /-- The 22 execution counters, in the order of `Mnemonic.index` (R26). -/
  count : Vector Nat 22
  /-- The latency table (R28). -/
  lat : Latencies
  /-- RUNNING or TERMINATED (R24). -/
  run : RunState
  /-- Why the run terminated (R25). -/
  reason : Reason
  /-- The output events so far, oldest first (R32). -/
  events : List Event
deriving DecidableEq, Repr

/-- The start of a run (10_state.md R34, 70_reset_and_hazards.md R121) with an empty program image and no latency
configuration. `boot` (Machine/Boot.lean) gives the start of a run for every image and configuration (log 4). -/
def State.reset : State where
  x := Vector.replicate 8 0
  pc := 0
  imem := []
  dmem := []
  count := Vector.replicate 22 0
  lat := Latencies.default
  run := .running
  reason := .none
  events := []

/-- Why the machine has no next state. -/
inductive Fault where
  /-- Raised by `step` alone, in TERMINATED: "in TERMINATED it has no step at all" (45_fetch_execute.md R95). Safe: the
  block has no step there either. -/
  | terminated
deriving DecidableEq, Repr

/-- Why an instruction has no meaning. -/
inductive Refusal where
  /-- Raised by `exec`'s arm of an instruction that is not modelled; no arm raises it. Safe: the model stops. -/
  | notModelled (mnemonic : String)
deriving DecidableEq, Repr

/-- How an instruction's handler ends (00_scope.md R13): `Continue(t)`, `Halt` or `Fatal(r)`. -/
inductive HandlerOutcome where
  | continueAt (t : Word)
  | halt
  | fatal (r : Reason)
deriving DecidableEq, Repr

/-- What a fetch gives (45_fetch_execute.md R96). -/
inductive Fetched where
  /-- `pc` is odd: nothing is read. -/
  | misaligned
  /-- The word at `pc`. -/
  | word (w : Word)
deriving DecidableEq, Repr

end Sys2Proof.Machine
end

