-- ==== Sys2Proof/Machine/Ops.lean ====
section
/-! DEFINITION. The named operations over memory, registers, counters and events; how an instruction's handler begins
and how the loop commits its outcome; ending a run, which is this hardware's only "exception" (60_exceptions.md R109:
no state is saved and control goes nowhere; R110: there is no return). -/

namespace Sys2Proof.Machine

/-- Is a byte address odd, that is `a[0] = 1` (20_memory.md R39, R40)? -/
def isOdd (a : Word) : Bool := a.getLsbD 0

/-! ## Memory -/

/-- The byte at an address; one not listed reads 0x00 (10_state.md R34). -/
def Memory.read : Memory → Nat → Byte
  | [], _ => 0
  | c :: m, a => if c.1 = a then c.2 else Memory.read m a

/-- Put a byte among the others by rising address. -/
def Memory.insert (a : Nat) (v : Byte) : Memory → Memory
  | [] => [(a, v)]
  | c :: m => if a < c.1 then (a, v) :: c :: m else c :: Memory.insert a v m

/-- Write a byte. The byte 0x00 is what an unlisted address reads as, so writing it removes the entry. -/
def Memory.write (m : Memory) (a : Nat) (v : Byte) : Memory :=
  if v = 0 then m.filter (fun c => c.1 != a) else Memory.insert a v (m.filter (fun c => c.1 != a))

/-- The canonical form: addresses strictly rising and inside the 65536 bytes, no entry equal to what an unlisted
address reads as. -/
abbrev Memory.wf (m : Memory) : Prop :=
  m.Pairwise (fun c d => c.1 < d.1) ∧ ∀ c ∈ m, c.1 < Config.dmemSize ∧ c.2 ≠ 0

/-- `MemRead(a, 2)` and `IMemRead(a, 2)`: the big-endian word at `a` (00_scope.md R12, 20_memory.md R37). -/
def Memory.readWord (m : Memory) (a : Word) : Word := Memory.read m a.toNat ++ Memory.read m (a + 1).toNat

/-- `MemWrite(a, 2, v)`: high byte at `a`, low byte at `a + 1` (00_scope.md R12, 20_memory.md R37). -/
def Memory.writeWord (m : Memory) (a v : Word) : Memory :=
  Memory.write (Memory.write m a.toNat (v.extractLsb' 8 8)) (a + 1).toNat (v.extractLsb' 0 8)

/-- Bytes laid out from an address on, in the canonical form. -/
def Memory.ofBytes : Nat → List Byte → Memory
  | _, [] => []
  | a, b :: bs => if b = 0 then Memory.ofBytes (a + 1) bs else (a, b) :: Memory.ofBytes (a + 1) bs

/-! ## Registers, counters, events -/

/-- `x[i]` (00_scope.md R12). No register is special (10_state.md R17). -/
def State.reg (s : State) (r : Reg) : Word := s.x[r]

/-- `x[i] <- v` (00_scope.md R12). -/
def State.setReg (s : State) (r : Reg) (v : Word) : State := { s with x := s.x.set r v }

/-- `count[k]` (10_state.md R26). -/
def State.counter (s : State) (k : Mnemonic) : Nat := s.count[k.index]

/-- `count[k] <- n` (00_scope.md R12). -/
def State.setCounter (s : State) (k : Mnemonic) (n : Nat) : State := { s with count := s.count.set k.index n }

/-- `emit e`: append an event (00_scope.md R12, 10_state.md R32). -/
def State.emit (s : State) (e : Event) : State := { s with events := s.events ++ [e] }

/-- `pc <- t` (00_scope.md R12). -/
def State.setPc (s : State) (t : Word) : State := { s with pc := t }

/-- Store a word in data memory (10_state.md R31: program memory is not touched). -/
def State.storeWord (s : State) (a v : Word) : State := { s with dmem := Memory.writeWord s.dmem a v }

/-- The address of the next instruction in sequence, `trunc16(u16(pc) + 2)`, wrapping (10_state.md R20). -/
def State.nextPc (s : State) : Word := s.pc + 2

/-! ## Handlers: how they begin and how their outcome is committed -/

/-- The dispatch of an instruction: its trace event, emitted before the handler runs (45_fetch_execute.md R99, R101;
logs 2, 9). -/
def State.dispatched (s : State) (k : Mnemonic) : State := s.emit (.trace k)

/-- The dispatch and the counting of an instruction other than HALT: `count[k] <- count[k] + 1`, also when the handler
then ends fatally (10_state.md R27, D9, log 12). -/
def State.counted (s : State) (k : Mnemonic) : State := (s.dispatched k).setCounter k (s.counter k + 1)

/-- End the run with a reason; `pc` stays (45_fetch_execute.md R100, 10_state.md R22, log 13). -/
def State.terminate (s : State) (r : Reason) : State := { s with run := .terminated, reason := r }

/-- Abort the run: report the condition, then end (45_fetch_execute.md R99, R100). Nothing is saved and control goes
nowhere (60_exceptions.md R109). -/
def State.abort (s : State) (r : Reason) : State := (s.emit (.diag (.fatal r))).terminate r

/-- Act on a handler's outcome (45_fetch_execute.md R100): a `Continue` to 0xFFFF is the source's fatal sentinel and
ends the run after the instruction has completed (D11, log 14). -/
def commit (s : State) : HandlerOutcome → State
  | .continueAt t => if t = 0xFFFF then s.abort .sentinelTarget else s.setPc t
  | .halt => s.terminate .halted
  | .fatal r => s.abort r

/-- The end of every meaning: the committed state is the next state. -/
def complete (s : State) (o : HandlerOutcome) : Host.Outcome State Fault Refusal := .next (commit s o)

/-! ## Fetching -/

/-- Fetch at `pc` (45_fetch_execute.md R96): refused at an odd `pc`, else the big-endian word of program memory. -/
def fetch (s : State) : Fetched := if isOdd s.pc then .misaligned else .word (Memory.readWord s.imem s.pc)

/-- A fetch at an odd `pc` ends the run (45_fetch_execute.md R96, D12, log 15): nothing is read or counted. -/
def endMisaligned (s : State) : State := (s.emit (.diag (.fetchMisaligned s.pc))).terminate .fetchMisaligned

/-- A word that is no instruction is reported and skipped (44_system.md R93, D21, log 17): no counter, no trace. -/
def skipUnknown (s : State) : DecodeError → State
  | .unknownOpcode op => (s.emit (.diag (.unknownOpcode op s.pc))).setPc s.nextPc

/-- Store an instruction word in program memory where the next fetch reads it. -/
def placeWord (s : State) (w : Word) : State := { s with imem := Memory.writeWord s.imem s.pc w }

end Sys2Proof.Machine
end

