-- ==== Sys2Proof/Machine/Operands.lean ====
section
/-! DEFINITION. The readings of a 16-bit pattern (00_scope.md R10) and every operand form: immediates and targets
(30_encoding.md R56), the register-indirect address (20_memory.md R36). -/

namespace Sys2Proof.Machine

/-- `u16(v)`: the pattern as an unsigned integer (00_scope.md R10). -/
def u16 (v : Word) : Int := (v.toNat : Int)

/-- `s16(v)`: the pattern as a two's-complement integer (00_scope.md R10). -/
def s16 (v : Word) : Int := v.toInt

/-- `trunc16(n)`: the pattern of `n mod 65536` (00_scope.md R10). -/
def trunc16 (n : Int) : Word := BitVec.ofInt 16 n

/-- LIZ's operand `zext_16(imm8)` (30_encoding.md R56). -/
def zeroExtended (imm8 : BitVec 8) : Word := imm8.setWidth 16

/-- LIS's operand `sext_16(imm8)` (30_encoding.md R56). -/
def signExtended (imm8 : BitVec 8) : Word := imm8.signExtend 16

/-- LUI's operand `imm8 ++ x[rd][7:0]` (30_encoding.md R56). -/
def upperReplaced (imm8 : BitVec 8) (old : Word) : Word := imm8 ++ old.extractLsb' 0 8

/-- A branch's absolute target `zext_16((imm8 << 1) & 0x1FF)` (30_encoding.md R56, 43_control_transfer.md R81). -/
def branchTarget (imm8 : BitVec 8) : Word := (imm8.setWidth 16 <<< 1) &&& 0x1FF

/-- J's target `pc[15:12] ++ imm11 ++ 0b0`: the page is that of the J itself (30_encoding.md R56,
43_control_transfer.md R89). -/
def pageTarget (pc : Word) (imm11 : BitVec 11) : Word := (pc &&& 0xF000) ||| (imm11.setWidth 16 <<< 1)

/-- The effective address of LW and SW: the pattern of `x[rs]`, read as unsigned, with no displacement
(20_memory.md R36, 41_load_store.md R74). -/
def dataAddress (s : State) (rs : Reg) : Word := s.reg rs

end Sys2Proof.Machine
end

