-- ==== Sys2Proof/Machine/Flags.lean ====
section
/-! DEFINITION. The conditions the branches test. The hardware has no flags or condition codes (10_state.md R23): a
branch tests a general register directly, read as signed (43_control_transfer.md R82), and no instruction records a
carry, an overflow or a sign. -/

namespace Sys2Proof.Machine

/-- BP's condition `s16(x[rd]) > 0` (43_control_transfer.md R83). -/
def isPositive (v : Word) : Bool := decide (0 < s16 v)

/-- BN's condition `s16(x[rd]) < 0` (43_control_transfer.md R84). -/
def isNegative (v : Word) : Bool := decide (s16 v < 0)

/-- BX's condition `s16(x[rd]) != 0` (43_control_transfer.md R85). -/
def isNonZero (v : Word) : Bool := decide (s16 v ≠ 0)

/-- BZ's condition `s16(x[rd]) = 0` (43_control_transfer.md R86). -/
def isZero (v : Word) : Bool := decide (s16 v = 0)

/-- The zero-divisor test of DIV and MOD, `s16(x[rt]) = 0` (40_arithmetic.md R70, R72). -/
def isZeroDivisor (v : Word) : Bool := decide (s16 v = 0)

end Sys2Proof.Machine
end

