-- ==== Sys2Proof/Machine/Arith.lean ====
section
/-! DEFINITION. The eight arithmetic and logic instructions (40_arithmetic.md). Each reads both sources before it
writes (00_scope.md R14, log 11). -/

namespace Sys2Proof.Machine

/-- The common end of an ALU instruction and of every other register write that goes on in sequence: count, write
`x[rd]`, continue at `pc + 2` (40_arithmetic.md R64, 42_immediate.md R77). -/
def writeAndContinue (k : Mnemonic) (rd : Reg) (v : Word) (s : State) : Host.Outcome State Fault Refusal :=
  complete ((s.counted k).setReg rd v) (.continueAt s.nextPc)

/-- `b` multiplied by itself `n` times in 16-bit arithmetic, by squaring, for `n < 2 ^ fuel`: the pattern
`trunc16(pow(a, n))` when `b = trunc16(a)`, since truncation commutes with multiplication. -/
def powWord : Nat → Word → Nat → Word
  | 0, _, _ => 1
  | fuel + 1, b, n => (if n % 2 = 1 then b else 1) * powWord fuel (b * b) (n / 2)

/-- The spec's reference value of `EXP_NEG(a, n)`, "the exact rational power `a^n` rounded toward zero"
(40_arithmetic.md R73, D7). The machine uses `Config.expNeg`, of which nothing is assumed (log 1). -/
def expNegReference (a n : Int) : Word :=
  if a = 1 then 1
  else if a = -1 then (if n % 2 = 0 then 1 else 0xFFFF)
  else 0

/-- EXP's result: the exact power truncated for a non-negative exponent, else `EXP_NEG(a, n)`
(40_arithmetic.md R73). An exponent read as signed is below 2^15. -/
def expResult (a n : Word) : Word :=
  if 0 ≤ s16 n then powWord 15 a n.toNat else Config.expNeg (s16 a) (s16 n)

/-- ADD (40_arithmetic.md R66). -/
def execAdd (rd rs rt : Reg) (s : State) : Host.Outcome State Fault Refusal :=
  writeAndContinue .add rd (trunc16 (u16 (s.reg rs) + u16 (s.reg rt))) s

/-- SUB (40_arithmetic.md R67). -/
def execSub (rd rs rt : Reg) (s : State) : Host.Outcome State Fault Refusal :=
  writeAndContinue .sub rd (trunc16 (u16 (s.reg rs) - u16 (s.reg rt))) s

/-- AND (40_arithmetic.md R68). -/
def execAnd (rd rs rt : Reg) (s : State) : Host.Outcome State Fault Refusal :=
  writeAndContinue .and rd (s.reg rs &&& s.reg rt) s

/-- NOR (40_arithmetic.md R69). -/
def execNor (rd rs rt : Reg) (s : State) : Host.Outcome State Fault Refusal :=
  writeAndContinue .nor rd (~~~(s.reg rs ||| s.reg rt)) s

/-- DIV (40_arithmetic.md R70): a zero divisor is fatal, with the instruction counted and `x[rd]` unchanged; else the
quotient rounded toward zero. -/
def execDiv (rd rs rt : Reg) (s : State) : Host.Outcome State Fault Refusal :=
  if isZeroDivisor (s.reg rt) then complete (s.counted .div) (.fatal .divideByZero)
  else writeAndContinue .div rd (trunc16 (Int.tdiv (s16 (s.reg rs)) (s16 (s.reg rt)))) s

/-- MUL (40_arithmetic.md R71). -/
def execMul (rd rs rt : Reg) (s : State) : Host.Outcome State Fault Refusal :=
  writeAndContinue .mul rd (trunc16 (s16 (s.reg rs) * s16 (s.reg rt))) s

/-- MOD (40_arithmetic.md R72): a zero divisor is fatal, with the instruction counted and `x[rd]` unchanged; else
`a - b * (a quot b)`, which has the sign of the dividend. -/
def execMod (rd rs rt : Reg) (s : State) : Host.Outcome State Fault Refusal :=
  if isZeroDivisor (s.reg rt) then complete (s.counted .mod) (.fatal .moduloByZero)
  else writeAndContinue .mod rd (trunc16 (Int.tmod (s16 (s.reg rs)) (s16 (s.reg rt)))) s

/-- EXP (40_arithmetic.md R73). -/
def execExp (rd rs rt : Reg) (s : State) : Host.Outcome State Fault Refusal :=
  writeAndContinue .exp rd (expResult (s.reg rs) (s.reg rt)) s

end Sys2Proof.Machine
end

