-- ==== Sys2Proof/Machine/Control.lean ====
section
/-! DEFINITION. The control-transfer instructions (43_control_transfer.md). There is no delay slot (R82). -/

namespace Sys2Proof.Machine

/-- A conditional branch: to its absolute target when the condition holds, else in sequence; counted either way
(43_control_transfer.md R81, R82). -/
def branchIf (k : Mnemonic) (taken : Bool) (imm8 : BitVec 8) (s : State) : Host.Outcome State Fault Refusal :=
  complete (s.counted k) (.continueAt (if taken then branchTarget imm8 else s.nextPc))

/-- BP (43_control_transfer.md R83). -/
def execBp (rd : Reg) (imm8 : BitVec 8) (s : State) : Host.Outcome State Fault Refusal :=
  branchIf .bp (isPositive (s.reg rd)) imm8 s

/-- BN (43_control_transfer.md R84). -/
def execBn (rd : Reg) (imm8 : BitVec 8) (s : State) : Host.Outcome State Fault Refusal :=
  branchIf .bn (isNegative (s.reg rd)) imm8 s

/-- BX (43_control_transfer.md R85). -/
def execBx (rd : Reg) (imm8 : BitVec 8) (s : State) : Host.Outcome State Fault Refusal :=
  branchIf .bx (isNonZero (s.reg rd)) imm8 s

/-- BZ (43_control_transfer.md R86). -/
def execBz (rd : Reg) (imm8 : BitVec 8) (s : State) : Host.Outcome State Fault Refusal :=
  branchIf .bz (isZero (s.reg rd)) imm8 s

/-- JR (43_control_transfer.md R87): the register's pattern is the target, neither checked nor aligned. -/
def execJr (rs : Reg) (s : State) : Host.Outcome State Fault Refusal :=
  complete (s.counted .jr) (.continueAt (s.reg rs))

/-- JALR (43_control_transfer.md R88): the target is read before the link is written. -/
def execJalr (rd rs : Reg) (s : State) : Host.Outcome State Fault Refusal :=
  complete ((s.counted .jalr).setReg rd s.nextPc) (.continueAt (s.reg rs))

/-- J (43_control_transfer.md R89). -/
def execJ (imm11 : BitVec 11) (s : State) : Host.Outcome State Fault Refusal :=
  complete (s.counted .j) (.continueAt (pageTarget s.pc imm11))

end Sys2Proof.Machine
end

