-- ==== Sys2Proof/Machine/Immediate.lean ====
section
/-! DEFINITION. The three immediate loads (42_immediate.md). -/

namespace Sys2Proof.Machine

/-- LIZ (42_immediate.md R78). -/
def execLiz (rd : Reg) (imm8 : BitVec 8) (s : State) : Host.Outcome State Fault Refusal :=
  writeAndContinue .liz rd (zeroExtended imm8) s

/-- LIS (42_immediate.md R79). -/
def execLis (rd : Reg) (imm8 : BitVec 8) (s : State) : Host.Outcome State Fault Refusal :=
  writeAndContinue .lis rd (signExtended imm8) s

/-- LUI (42_immediate.md R80). -/
def execLui (rd : Reg) (imm8 : BitVec 8) (s : State) : Host.Outcome State Fault Refusal :=
  writeAndContinue .lui rd (upperReplaced imm8 (s.reg rd)) s

end Sys2Proof.Machine
end

