-- ==== Sys2Proof/Machine/LoadStore.lean ====
section
/-! DEFINITION. The two data-memory instructions (41_load_store.md). An odd address ends the run, with the instruction
counted and neither memory nor registers changed (20_memory.md R39). -/

namespace Sys2Proof.Machine

/-- LW (41_load_store.md R75). -/
def execLw (rd rs : Reg) (s : State) : Host.Outcome State Fault Refusal :=
  if isOdd (dataAddress s rs) then complete (s.counted .lw) (.fatal .unalignedAccess)
  else writeAndContinue .lw rd (Memory.readWord s.dmem (dataAddress s rs)) s

/-- SW (41_load_store.md R76). -/
def execSw (rs rt : Reg) (s : State) : Host.Outcome State Fault Refusal :=
  if isOdd (dataAddress s rs) then complete (s.counted .sw) (.fatal .unalignedAccess)
  else complete ((s.counted .sw).storeWord (dataAddress s rs) (s.reg rt)) (.continueAt s.nextPc)

end Sys2Proof.Machine
end

