-- ==== Sys2Proof/Machine/System.lean ====
section
/-! DEFINITION. HALT and PUT (44_system.md). -/

namespace Sys2Proof.Machine

/-- HALT (44_system.md R91): its counter is SET to 1, and the run completes. -/
def execHalt (s : State) : Host.Outcome State Fault Refusal :=
  complete ((s.dispatched .halt).setCounter .halt 1) .halt

/-- PUT (44_system.md R92): the register's 16-bit value leaves the block as an event. -/
def execPut (rs : Reg) (s : State) : Host.Outcome State Fault Refusal :=
  complete ((s.counted .put).emit (.put (s.reg rs))) (.continueAt s.nextPc)

end Sys2Proof.Machine
end

