-- ==== Sys2Proof/Machine/Dispatch.lean ====
section
/-! DEFINITION. The dispatch (45_fetch_execute.md R98): one arm per instruction. -/

namespace Sys2Proof.Machine

def exec (i : Instr) (s : State) : Host.Outcome State Fault Refusal :=
  match i with
  | .add rd rs rt => Sys2Proof.Machine.execAdd rd rs rt s
  | .sub rd rs rt => Sys2Proof.Machine.execSub rd rs rt s
  | .and rd rs rt => Sys2Proof.Machine.execAnd rd rs rt s
  | .nor rd rs rt => Sys2Proof.Machine.execNor rd rs rt s
  | .div rd rs rt => Sys2Proof.Machine.execDiv rd rs rt s
  | .mul rd rs rt => Sys2Proof.Machine.execMul rd rs rt s
  | .mod rd rs rt => Sys2Proof.Machine.execMod rd rs rt s
  | .exp rd rs rt => Sys2Proof.Machine.execExp rd rs rt s
  | .lw rd rs => Sys2Proof.Machine.execLw rd rs s
  | .sw rs rt => Sys2Proof.Machine.execSw rs rt s
  | .jr rs => Sys2Proof.Machine.execJr rs s
  | .halt => Sys2Proof.Machine.execHalt s
  | .put rs => Sys2Proof.Machine.execPut rs s
  | .liz rd imm8 => Sys2Proof.Machine.execLiz rd imm8 s
  | .lis rd imm8 => Sys2Proof.Machine.execLis rd imm8 s
  | .lui rd imm8 => Sys2Proof.Machine.execLui rd imm8 s
  | .jalr rd rs => Sys2Proof.Machine.execJalr rd rs s
  | .bp rd imm8 => Sys2Proof.Machine.execBp rd imm8 s
  | .bn rd imm8 => Sys2Proof.Machine.execBn rd imm8 s
  | .bx rd imm8 => Sys2Proof.Machine.execBx rd imm8 s
  | .bz rd imm8 => Sys2Proof.Machine.execBz rd imm8 s
  | .j imm11 => Sys2Proof.Machine.execJ imm11 s

end Sys2Proof.Machine
end

