-- ==== Sys2Proof/Machine/Step.lean ====
section
/-! DEFINITION. The step of the machine (45_fetch_execute.md R101), and where a program word stands for it. -/

namespace Sys2Proof.Machine

/-- One step, with the checks in the order of 60_exceptions.md R108: no step in TERMINATED (R95), an odd `pc` (R96), an
unknown opcode (44_system.md R93), then the instruction. -/
def step (s : State) : Host.Outcome State Fault Refusal :=
  match s.run with
  | .terminated => .fault .terminated
  | .running =>
    match fetch s with
    | .misaligned => .next (endMisaligned s)
    | .word w =>
      match decodeWord w with
      | .ok i => exec i s
      | .error e => .next (skipUnknown s e)

/-- The state with the instruction the opcode table's numbering calls `w` stored at `pc` in program memory, where the
next fetch reads it (log 5). Nothing else changes. -/
def State.withFetchWord (s : State) (nbits w : Nat) : State := placeWord s (tableWord nbits w)

end Sys2Proof.Machine
end

