-- ==== Sys2Proof/Machine/Boot.lean ====
section
/-! DEFINITION. The start of a run: the host supplies a program image and a latency configuration, and the reset values
are applied (70_reset_and_hazards.md R121 to R125). -/

namespace Sys2Proof.Machine

/-- Why no run starts. -/
inductive StartRefusal where
  /-- "An image longer than 65536 bytes is refused (no run starts)" (70_reset_and_hazards.md R122). Safe. -/
  | imageTooLong (length : Nat)
  /-- "a configuration with a negative entry is refused by the model (no run starts)" (10_state.md R28). Safe. -/
  | negativeLatency (k : Mnemonic) (v : Int)
deriving DecidableEq, Repr

/-- One entry of the latency table: the configured value, or 1 where none is (70_reset_and_hazards.md R123). -/
def latencyEntry (k : Mnemonic) : Option Int → Except StartRefusal Nat
  | none => .ok Config.defaultLatency
  | some v => if v < 0 then .error (.negativeLatency k v) else .ok v.toNat

/-- The latency table of a configuration (10_state.md R28, 70_reset_and_hazards.md R123). -/
def latencyTable (c : LatencyConfig) : Except StartRefusal Latencies := do
  return {
    add := ← latencyEntry .add c.add
    sub := ← latencyEntry .sub c.sub
    and := ← latencyEntry .and c.and
    nor := ← latencyEntry .nor c.nor
    div := ← latencyEntry .div c.div
    mul := ← latencyEntry .mul c.mul
    mod := ← latencyEntry .mod c.mod
    exp := ← latencyEntry .exp c.exp }

/-- The state before the first step of a run: the image from address 0, the configured latencies, everything else at
its reset value (10_state.md R34, 70_reset_and_hazards.md R121, R122). -/
def boot (image : List Byte) (c : LatencyConfig) : Except StartRefusal State :=
  if Config.imemSize < image.length then .error (.imageTooLong image.length)
  else
    match latencyTable c with
    | .ok l => .ok { State.reset with imem := Memory.ofBytes 0 image, lat := l }
    | .error e => .error e

end Sys2Proof.Machine
end

