-- ==== Sys2Proof/Machine/Record.lean ====
section
/-! DEFINITION. What the host reads: the event streams (00_scope.md R7), the status, the totals (60_exceptions.md R113)
and the output record (R114). -/

namespace Sys2Proof.Machine

/-- The code of a termination reason (60_exceptions.md R104). -/
def Reason.code : Reason → Nat
  | .none => 0
  | .halted => 1
  | .divideByZero => 2
  | .moduloByZero => 3
  | .unalignedAccess => 4
  | .fetchMisaligned => 5
  | .sentinelTarget => 6

/-- The values output by PUT, in order (00_scope.md R7). -/
def puts (es : List Event) : List Word :=
  es.filterMap fun | .put v => some v | .trace _ => none | .diag _ => none

/-- The kinds traced, in order (00_scope.md R7). -/
def traces (es : List Event) : List Mnemonic :=
  es.filterMap fun | .put _ => none | .trace m => some m | .diag _ => none

/-- The diagnostics, in order (00_scope.md R7). -/
def diags (es : List Event) : List Diag :=
  es.filterMap fun | .put _ => none | .trace _ => none | .diag d => some d

/-- What one execution of a kind costs in cycles: its configured latency for the eight arithmetic and logic kinds, 1
for the others (60_exceptions.md R113, 70_reset_and_hazards.md R128). -/
def cost (l : Latencies) : Mnemonic → Nat
  | .add => l.add | .sub => l.sub | .and => l.and | .nor => l.nor
  | .div => l.div | .mul => l.mul | .mod => l.mod | .exp => l.exp
  | .lw | .sw | .liz | .lis | .lui | .bp | .bn | .bx | .bz | .jr | .jalr | .j | .halt | .put => 1

/-- The total instruction count (60_exceptions.md R113). -/
def State.instructions (s : State) : Nat := (Mnemonic.all.map s.counter).sum

/-- The total cycle count (60_exceptions.md R113). -/
def State.cycles (s : State) : Nat := (Mnemonic.all.map fun k => s.counter k * cost s.lat k).sum

/-- The output record of a terminated run (60_exceptions.md R114): the registers read as signed, the 22 counts, the
two totals. It does not include `pc`, data memory or the reason. -/
structure OutputRecord where
  regs : Vector Int 8
  count : Vector Nat 22
  instructions : Nat
  cycles : Nat
deriving DecidableEq, Repr

/-- The 8 register values read as signed (60_exceptions.md R114). -/
def State.signedRegs (s : State) : Vector Int 8 :=
  #v[s16 (s.reg 0), s16 (s.reg 1), s16 (s.reg 2), s16 (s.reg 3), s16 (s.reg 4), s16 (s.reg 5), s16 (s.reg 6),
    s16 (s.reg 7)]

/-- The record, which a run has once it is TERMINATED, completed or aborted (45_fetch_execute.md R103). -/
def State.outputRecord (s : State) : Option OutputRecord :=
  match s.run with
  | .running => none
  | .terminated =>
    some { regs := s.signedRegs, count := s.count, instructions := s.instructions, cycles := s.cycles }

end Sys2Proof.Machine
end

