-- ==== Sys2Proof/Machine/Run.lean ====
section
/-! DEFINITION. Runs under fuel (45_fetch_execute.md R102, R103). -/

namespace Sys2Proof.Machine

/-- The state after at most `n` steps: it stays where there is no step. Running out of fuel is not a termination
(45_fetch_execute.md R102). -/
def runFor : Nat → State → State
  | 0, s => s
  | n + 1, s =>
    match step s with
    | .next t => runFor n t
    | .fault _ => s
    | .refused _ => s

/-- The output record of the run of an image under a configuration, if the run starts and ends within `n` steps
(45_fetch_execute.md R103, 60_exceptions.md R115). -/
def recordOfRun (n : Nat) (image : List Byte) (c : LatencyConfig) : Except StartRefusal (Option OutputRecord) :=
  (boot image c).map fun s => (runFor n s).outputRecord

end Sys2Proof.Machine
end

