-- ==== Sys2Proof/Safety.lean ====
section
/-! DEFINITION. The terms claims use: completed and aborted runs, the invariant, what a retired instruction leaves. -/

namespace Sys2Proof.Machine

/-- The run has completed (45_fetch_execute.md R103). -/
abbrev State.Completed (s : State) : Prop := s.run = .terminated ∧ s.reason = .halted

/-- The run has aborted (45_fetch_execute.md R103). -/
abbrev State.Aborted (s : State) : Prop := s.run = .terminated ∧ s.reason ≠ .halted

/-- The word at `pc` in program memory: `imem[pc] ++ imem[pc+1]` (30_encoding.md R51). -/
def State.wordAtPc (s : State) : Word := Memory.read s.imem s.pc.toNat ++ Memory.read s.imem (s.pc + 1).toNat

/-- The machine takes a step at which it dispatches the instruction `i` (60_exceptions.md R108, the checks before the
handler). -/
abbrev State.Dispatches (s : State) (i : Instr) : Prop :=
  s.run = .running ∧ isOdd s.pc = false ∧ decodeWord s.wordAtPc = .ok i

/-- A condition that ends the run at an instruction, and its reason (60_exceptions.md R105, and HALT). -/
def State.endsWith (s : State) : Instr → Option Reason
  | .div _ _ rt => if s.reg rt = 0 then some .divideByZero else none
  | .mod _ _ rt => if s.reg rt = 0 then some .moduloByZero else none
  | .lw _ rs => if isOdd (s.reg rs) then some .unalignedAccess else none
  | .sw rs _ => if isOdd (s.reg rs) then some .unalignedAccess else none
  | .jr rs => if s.reg rs = 0xFFFF then some .sentinelTarget else none
  | .jalr _ rs => if s.reg rs = 0xFFFF then some .sentinelTarget else none
  | .halt => some .halted
  | .add _ _ _ | .sub _ _ _ | .and _ _ _ | .nor _ _ _ | .mul _ _ _ | .exp _ _ _ => none
  | .put _ | .liz _ _ | .lis _ _ | .lui _ _ => none
  | .bp _ _ | .bn _ _ | .bx _ _ | .bz _ _ | .j _ => none

/-- The state with the accounting of one retired instruction done and nothing else changed: its own counter one up and
its trace event appended (10_state.md R26, R27, R32). -/
def State.withRetired (s : State) (k : Mnemonic) : State :=
  { s with count := s.count.set k.index (s.count[k.index] + 1), events := s.events ++ [.trace k] }

/-- `t` is `s` after an instruction of kind `k` was attempted and its fatal condition `r` ended the run
(60_exceptions.md R105, R106): only the kind's counter, `run`, `reason` and `events` differ, and the new events are the
kind's trace and one report, in an order left open (D20). -/
def State.AbortsAt (s : State) (k : Mnemonic) (r : Reason) (t : State) : Prop :=
  ∃ es,
    t = { s with count := s.count.set k.index (s.count[k.index] + 1), events := es, run := .terminated, reason := r } ∧
    puts es = puts s.events ∧ traces es = traces s.events ++ [k] ∧ diags es = diags s.events ++ [.fatal r]

/-- The instructions that branch, jump or halt; every other one goes on in sequence (10_state.md R20). -/
def transfersControl : Instr → Bool
  | .bp _ _ | .bn _ _ | .bx _ _ | .bz _ _ | .jr _ | .jalr _ _ | .j _ | .halt => true
  | .add _ _ _ | .sub _ _ _ | .and _ _ _ | .nor _ _ _ | .div _ _ _ | .mul _ _ _ | .mod _ _ _ | .exp _ _ _ => false
  | .lw _ _ | .sw _ _ | .put _ | .liz _ _ | .lis _ _ | .lui _ _ => false

/-- The invariant: both memories in canonical form; the reason is NONE exactly while RUNNING (10_state.md R25); no HALT
has been counted while RUNNING (44_system.md R91); each counter is the number of trace events of its kind
(45_fetch_execute.md R99), and PUT's the number of values output (44_system.md R92). -/
structure State.Inv (s : State) : Prop where
  imem : Memory.wf s.imem
  dmem : Memory.wf s.dmem
  reason : s.reason = .none ↔ s.run = .running
  halt : s.run = .running → s.counter .halt = 0
  traced : ∀ k, s.counter k = (traces s.events).count k
  output : (puts s.events).length = s.counter .put

end Sys2Proof.Machine
end

