-- ==== Sys2Proof/Certificates/Slice0/Obligations.lean ====
section
/-! DEFINITION. The statements for the provers. Each docstring names the rules of spec/ it rests on; where a clause is a
decision of spec/92_eei_decisions.md it names that too. -/

open Sys2Proof Sys2Proof.Machine

/-! ## Encoding -/

/-- R52 to R55, R59: every instruction, with every operand at every value, decodes back from its word, and from its two
bytes followed by any others. -/
def Obligations.DecodeOfEncodeGivesTheInstruction : Prop :=
  ∀ i : Instr, decodeWord (encodeWord i) = .ok i ∧ ∀ rest : List Byte, decodeBytes (encode i ++ rest) = .ok (i, rest)

/-- R55, R59: a word decodes to `i` exactly when its used bits are those of `i`'s canonical word; the ignored bits may
hold anything. That the canonical word has 0 in the ignored bits is D22 (log 7). -/
def Obligations.DecodingIgnoresExactlyTheUnusedBits : Prop :=
  ∀ (w : Word) (i : Instr), decodeWord w = .ok i ↔ w &&& i.mnemonic.usedMask = encodeWord i

/-- R60: ten opcode values select no instruction, and every word of another opcode is one; a word of the ten is reported
and skipped, not fatal. -/
def Obligations.TenOpcodesSelectNoInstruction : Prop :=
  ∀ w : Word,
    ((w.extractLsb' 11 5).toNat ∈ [0x0A, 0x0B, 0x0F, 0x19, 0x1A, 0x1B, 0x1C, 0x1D, 0x1E, 0x1F] →
      decodeWord w = .error (.unknownOpcode (w.extractLsb' 11 5)) ∧
      ∀ s : State, s.run = .running → isOdd s.pc = false → s.wordAtPc = w →
        ∃ t d, step s = .next t ∧ t.run = .running ∧ t.pc = s.pc + 2 ∧ diags t.events = diags s.events ++ [d]) ∧
    ((w.extractLsb' 11 5).toNat ∉ [0x0A, 0x0B, 0x0F, 0x19, 0x1A, 0x1B, 0x1C, 0x1D, 0x1E, 0x1F] →
      ∃ i, decodeWord w = .ok i)

/-- R58, with the fields of R52 to R54 and R97: what each of the 32 opcode values selects, for every word. -/
def Obligations.OpcodeFieldSelectsTheInstruction : Prop :=
  ∀ (w : Word) (op : BitVec 5) (rd rs rt : Reg) (imm8 : BitVec 8),
    op = w.extractLsb' 11 5 → rd = (w.extractLsb' 8 3).toFin → rs = (w.extractLsb' 5 3).toFin →
    rt = (w.extractLsb' 2 3).toFin → imm8 = w.extractLsb' 0 8 →
    (op = 0x00 → decodeWord w = .ok (.add rd rs rt)) ∧
    (op = 0x01 → decodeWord w = .ok (.sub rd rs rt)) ∧
    (op = 0x02 → decodeWord w = .ok (.and rd rs rt)) ∧
    (op = 0x03 → decodeWord w = .ok (.nor rd rs rt)) ∧
    (op = 0x04 → decodeWord w = .ok (.div rd rs rt)) ∧
    (op = 0x05 → decodeWord w = .ok (.mul rd rs rt)) ∧
    (op = 0x06 → decodeWord w = .ok (.mod rd rs rt)) ∧
    (op = 0x07 → decodeWord w = .ok (.exp rd rs rt)) ∧
    (op = 0x08 → decodeWord w = .ok (.lw rd rs)) ∧
    (op = 0x09 → decodeWord w = .ok (.sw rs rt)) ∧
    (op = 0x0C → decodeWord w = .ok (.jr rs)) ∧
    (op = 0x0D → decodeWord w = .ok .halt) ∧
    (op = 0x0E → decodeWord w = .ok (.put rs)) ∧
    (op = 0x10 → decodeWord w = .ok (.liz rd imm8)) ∧
    (op = 0x11 → decodeWord w = .ok (.lis rd imm8)) ∧
    (op = 0x12 → decodeWord w = .ok (.lui rd imm8)) ∧
    (op = 0x13 → decodeWord w = .ok (.jalr rd rs)) ∧
    (op = 0x14 → decodeWord w = .ok (.bp rd imm8)) ∧
    (op = 0x15 → decodeWord w = .ok (.bn rd imm8)) ∧
    (op = 0x16 → decodeWord w = .ok (.bx rd imm8)) ∧
    (op = 0x17 → decodeWord w = .ok (.bz rd imm8)) ∧
    (op = 0x18 → decodeWord w = .ok (.j (w.extractLsb' 0 11))) ∧
    (op ∈ ([0x0A, 0x0B, 0x0F, 0x19, 0x1A, 0x1B, 0x1C, 0x1D, 0x1E, 0x1F] : List (BitVec 5)) →
      ∀ i, decodeWord w ≠ .ok i)

/-- 95_test_vectors.md L2-0: words written out by the spec decode as it says. -/
def Obligations.SpecWordsDecodeAsListed : Prop :=
  decodeWord 0x0000 = .ok (.add 0 0 0) ∧ decodeWord 0x032B = .ok (.add 3 1 2) ∧
  decodeWord 0x4F5F = .ok (.sw 2 7) ∧ decodeWord 0x6FFF = .ok .halt ∧
  decodeWord 0x8CFF = .ok (.lis 4 0xFF) ∧ decodeWord 0x9EE0 = .ok (.jalr 6 7) ∧
  decodeWord 0xC7FF = .ok (.j 0x7FF) ∧ decodeWord 0xBFFF = .ok (.bz 7 0xFF) ∧
  decodeWord 0x5000 = .error (.unknownOpcode 0x0A) ∧ decodeWord 0xFFFF = .error (.unknownOpcode 0x1F)

/-! ## The step -/

/-- R101 (R96, R97, R98): when the machine runs, `pc` is even and the big-endian word at `pc` decodes to `i`, a step is
the meaning of `i` at that very state. -/
def Obligations.StepRunsTheDecodedInstruction : Prop :=
  ∀ (s : State) (i : Instr), s.Dispatches i → step s = exec i s

/-- R95, R110 (D26): TERMINATED, and only TERMINATED, has no step. -/
def Obligations.OnlyTerminatedHasNoStep : Prop :=
  ∀ s : State, step s = .fault .terminated ↔ s.run = .terminated

/-- R13, R95: while RUNNING every state has a next state: no word, operand or address stops the model. -/
def Obligations.RunningMachineAlwaysSteps : Prop :=
  ∀ s : State, s.run = .running → ∃ t, step s = .next t

/-- R96 (D12): a fetch at an odd `pc` ends the run; nothing else changes but the report. -/
def Obligations.OddFetchEndsTheRun : Prop :=
  ∀ s : State, s.run = .running → isOdd s.pc = true →
    step s = .next { s with run := .terminated, reason := .fetchMisaligned,
                            events := s.events ++ [.diag (.fetchMisaligned s.pc)] }

/-- R93 (D21): an unknown opcode is reported with its address and skipped; no counter changes and nothing is traced. -/
def Obligations.UnknownOpcodeIsReportedAndSkipped : Prop :=
  ∀ (s : State) (op : BitVec 5), s.run = .running → isOdd s.pc = false →
    decodeWord s.wordAtPc = .error (.unknownOpcode op) →
    step s = .next { s with pc := s.pc + 2, events := s.events ++ [.diag (.unknownOpcode op s.pc)] }

/-! ## Arithmetic and logic -/

/-- R66, R67, R71 (wrap-around is D3): ADD, SUB and MUL complete with the 16-bit sum, difference and product of the
values the sources held before. -/
def Obligations.AddSubMulWriteTheWrappedResult : Prop :=
  ∀ (s : State) (rd rs rt : Reg), isOdd s.pc = false →
    exec (.add rd rs rt) s =
      .next { s.withRetired .add with x := s.x.set rd (s.reg rs + s.reg rt), pc := s.pc + 2 } ∧
    exec (.sub rd rs rt) s =
      .next { s.withRetired .sub with x := s.x.set rd (s.reg rs - s.reg rt), pc := s.pc + 2 } ∧
    exec (.mul rd rs rt) s =
      .next { s.withRetired .mul with x := s.x.set rd (s.reg rs * s.reg rt), pc := s.pc + 2 }

/-- R68, R69: the words whose top five bits are those of AND and NOR are AND and NOR of the fields rd, rs and rt, and the
two complete with the bitwise result. -/
def Obligations.AndNorWriteTheBitwiseResult : Prop :=
  (∀ w : Word,
    (w &&& 0xF800 = 0x1000 →
      decodeWord w = .ok (.and (w.extractLsb' 8 3).toFin (w.extractLsb' 5 3).toFin (w.extractLsb' 2 3).toFin)) ∧
    (w &&& 0xF800 = 0x1800 →
      decodeWord w = .ok (.nor (w.extractLsb' 8 3).toFin (w.extractLsb' 5 3).toFin (w.extractLsb' 2 3).toFin))) ∧
  ∀ (s : State) (rd rs rt : Reg), isOdd s.pc = false →
    exec (.and rd rs rt) s =
      .next { s.withRetired .and with x := s.x.set rd (s.reg rs &&& s.reg rt), pc := s.pc + 2 } ∧
    exec (.nor rd rs rt) s =
      .next { s.withRetired .nor with x := s.x.set rd (~~~(s.reg rs ||| s.reg rt)), pc := s.pc + 2 }

/-- R70, R72 (D4, D5): for a non-zero divisor DIV and MOD complete with the quotient and the remainder of the signed
division whose remainder is smaller than the divisor and has the dividend's sign, cut to 16 bits. -/
def Obligations.DivModWriteQuotientAndRemainder : Prop :=
  ∀ (s : State) (rd rs rt : Reg), isOdd s.pc = false → s.reg rt ≠ 0 →
    ∃ q r : Int,
      (s.reg rs).toInt = q * (s.reg rt).toInt + r ∧ r.natAbs < (s.reg rt).toInt.natAbs ∧
      (r ≠ 0 → (r < 0 ↔ (s.reg rs).toInt < 0)) ∧
      exec (.div rd rs rt) s =
        .next { s.withRetired .div with x := s.x.set rd (BitVec.ofInt 16 q), pc := s.pc + 2 } ∧
      exec (.mod rd rs rt) s =
        .next { s.withRetired .mod with x := s.x.set rd (BitVec.ofInt 16 r), pc := s.pc + 2 }

/-- R73 (D6): for an exponent that is not negative EXP completes with the exact power cut to 16 bits. -/
def Obligations.ExpWritesTheTruncatedPower : Prop :=
  ∀ (s : State) (rd rs rt : Reg), isOdd s.pc = false → 0 ≤ (s.reg rt).toInt →
    exec (.exp rd rs rt) s =
      .next { s.withRetired .exp with
              x := s.x.set rd (BitVec.ofInt 16 ((s.reg rs).toInt ^ (s.reg rt).toNat)), pc := s.pc + 2 }

/-- R73 (D7, log 1): for a negative exponent EXP completes with the free value EXP_NEG of its two operands. -/
def Obligations.ExpOfNegativeExponentWritesTheFreeValue : Prop :=
  ∀ (s : State) (rd rs rt : Reg), isOdd s.pc = false → (s.reg rt).toInt < 0 →
    exec (.exp rd rs rt) s =
      .next { s.withRetired .exp with
              x := s.x.set rd (Config.expNeg (s.reg rs).toInt (s.reg rt).toInt), pc := s.pc + 2 }

/-- R73 (D7, the spec's own reference choice): the reference EXP_NEG is the rational power rounded toward zero, where the
power of 0 counts as 0. The machine does not use it (log 1). -/
def Obligations.ReferenceExpNegRoundsTheRationalPower : Prop :=
  ∀ a n : Int, n < 0 →
    expNegReference a n =
      BitVec.ofInt 16 (if 0 ≤ (a : ℚ) ^ n then ⌊(a : ℚ) ^ n⌋ else ⌈(a : ℚ) ^ n⌉)

/-! ## Immediate loads -/

/-- R78, R79, R80: the words of LIZ, LIS and LUI are they of the fields rd and imm8; they complete with the zero-extended
immediate, the sign-extended immediate, and the register with its upper byte replaced. -/
def Obligations.ImmediateLoadsWriteTheirValue : Prop :=
  (∀ w : Word,
    (w &&& 0xF800 = 0x8000 → decodeWord w = .ok (.liz (w.extractLsb' 8 3).toFin (w.extractLsb' 0 8))) ∧
    (w &&& 0xF800 = 0x8800 → decodeWord w = .ok (.lis (w.extractLsb' 8 3).toFin (w.extractLsb' 0 8))) ∧
    (w &&& 0xF800 = 0x9000 → decodeWord w = .ok (.lui (w.extractLsb' 8 3).toFin (w.extractLsb' 0 8)))) ∧
  ∀ (s : State) (rd : Reg) (imm8 : BitVec 8), isOdd s.pc = false →
    exec (.liz rd imm8) s =
      .next { s.withRetired .liz with x := s.x.set rd (BitVec.ofNat 16 imm8.toNat), pc := s.pc + 2 } ∧
    exec (.lis rd imm8) s =
      .next { s.withRetired .lis with x := s.x.set rd (BitVec.ofInt 16 imm8.toInt), pc := s.pc + 2 } ∧
    exec (.lui rd imm8) s =
      .next { s.withRetired .lui with
              x := s.x.set rd ((imm8.setWidth 16 <<< 8) ||| (s.reg rd &&& 0x00FF)), pc := s.pc + 2 }

/-- R17: no register is special. LIZ then LUI put any value in any register, and the other seven keep theirs. -/
def Obligations.EveryRegisterTakesEveryValue : Prop :=
  ∀ (s : State) (r : Reg) (v : Word), isOdd s.pc = false →
    ∃ t u, exec (.liz r (v.extractLsb' 0 8)) s = .next t ∧ exec (.lui r (v.extractLsb' 8 8)) t = .next u ∧
      u.reg r = v ∧ ∀ q, q ≠ r → u.reg q = s.reg q

/-! ## Data memory -/

/-- R75, R37 (the unsigned address is D23): at an even address LW completes with the big-endian word there. -/
def Obligations.LwLoadsTheBigEndianWord : Prop :=
  ∀ (s : State) (rd rs : Reg), isOdd s.pc = false → isOdd (s.reg rs) = false →
    exec (.lw rd rs) s =
      .next { s.withRetired .lw with
              x := s.x.set rd (Memory.read s.dmem (s.reg rs).toNat ++ Memory.read s.dmem ((s.reg rs).toNat + 1)),
              pc := s.pc + 2 }

/-- R76, R37 (the unsigned address is D23): at an even address SW completes; the two bytes at the address the meaning
uses hold the high and the low byte of `x[rt]`, and every other byte reads as before. -/
def Obligations.SwStoresTheTwoBytesAndNoOther : Prop :=
  ∀ (s : State) (rs rt : Reg), isOdd s.pc = false → isOdd (dataAddress s rs) = false →
    ∃ m : Memory, exec (.sw rs rt) s = .next { s.withRetired .sw with dmem := m, pc := s.pc + 2 } ∧
      Memory.read m (dataAddress s rs).toNat = (s.reg rt).extractLsb' 8 8 ∧
      Memory.read m ((dataAddress s rs).toNat + 1) = (s.reg rt).extractLsb' 0 8 ∧
      ∀ a, a ≠ (dataAddress s rs).toNat → a ≠ (dataAddress s rs).toNat + 1 → Memory.read m a = Memory.read s.dmem a

/-- R39: LW and SW at an odd address end the run with UNALIGNED_ACCESS and change neither a register nor memory; at an
even address they never do. -/
def Obligations.DataAccessRequiresAnEvenAddress : Prop :=
  ∀ (s : State) (i : Instr) (rs : Reg), ((∃ rd, i = .lw rd rs) ∨ ∃ rt, i = .sw rs rt) →
    (isOdd (s.reg rs) = true →
      ∃ t, exec i s = .next t ∧ t.run = .terminated ∧ t.reason = .unalignedAccess ∧ t.x = s.x ∧ t.dmem = s.dmem) ∧
    (isOdd (s.reg rs) = false → s.reason ≠ .unalignedAccess →
      ∃ t, exec i s = .next t ∧ t.reason ≠ .unalignedAccess)

/-- R31: data memory is written only by SW (every byte reads as before any other instruction) and read only by LW (for
any other instruction, other contents change nothing but the contents left). A step that dispatches no instruction does
neither. -/
def Obligations.DataMemoryIsOnlyForLwAndSw : Prop :=
  (∀ (i : Instr) (s t : State), exec i s = .next t →
    ((∀ rs rt, i ≠ .sw rs rt) → ∀ a, Memory.read t.dmem a = Memory.read s.dmem a) ∧
    ((∀ rd rs, i ≠ .lw rd rs) → ∀ m : Memory, ∃ m', exec i { s with dmem := m } = .next { t with dmem := m' })) ∧
  (∀ s t : State, step s = .next t → (∀ i, ¬ s.Dispatches i) →
    (∀ a, Memory.read t.dmem a = Memory.read s.dmem a) ∧
    ∀ m : Memory, step { s with dmem := m } = .next { t with dmem := m })

/-- R46: a load returns the word of the latest store to its address. After a SW to an even address `a`, and any number of
steps none of which dispatches a SW to `a`, a LW from `a` loads the stored word; and in a run none of whose steps so far
dispatched a SW to `a`, a LW from `a` loads 0x0000. -/
def Obligations.LoadReturnsTheLatestStore : Prop :=
  (∀ (n : Nat) (s : State) (rs rt rd rs' : Reg), s.Dispatches (.sw rs rt) → isOdd (s.reg rs) = false →
    (∀ k, 0 < k → k < n + 1 → ∀ p q, (runFor k s).Dispatches (.sw p q) → (runFor k s).reg p ≠ s.reg rs) →
    (runFor (n + 1) s).Dispatches (.lw rd rs') → (runFor (n + 1) s).reg rs' = s.reg rs →
    (runFor (n + 2) s).reg rd = s.reg rt) ∧
  (∀ (n : Nat) (image : List Byte) (c : LatencyConfig) (s : State) (rd rs : Reg), boot image c = .ok s →
    isOdd ((runFor n s).reg rs) = false →
    (∀ k, k < n → ∀ p q, (runFor k s).Dispatches (.sw p q) → (runFor k s).reg p ≠ (runFor n s).reg rs) →
    (runFor n s).Dispatches (.lw rd rs) → (runFor (n + 1) s).reg rd = 0)

/-! ## Control transfer -/

/-- R83 to R86: the words of the branches are they of the fields rd and imm8; they test their register as a signed number
and go to the absolute target `imm8 * 2`, else on in sequence; nothing else changes but their own accounting. -/
def Obligations.BranchesGoToTheAbsoluteTarget : Prop :=
  (∀ w : Word,
    (w &&& 0xF800 = 0xA000 → decodeWord w = .ok (.bp (w.extractLsb' 8 3).toFin (w.extractLsb' 0 8))) ∧
    (w &&& 0xF800 = 0xA800 → decodeWord w = .ok (.bn (w.extractLsb' 8 3).toFin (w.extractLsb' 0 8))) ∧
    (w &&& 0xF800 = 0xB000 → decodeWord w = .ok (.bx (w.extractLsb' 8 3).toFin (w.extractLsb' 0 8))) ∧
    (w &&& 0xF800 = 0xB800 → decodeWord w = .ok (.bz (w.extractLsb' 8 3).toFin (w.extractLsb' 0 8)))) ∧
  ∀ (s : State) (rd : Reg) (imm8 : BitVec 8), isOdd s.pc = false →
    exec (.bp rd imm8) s = .next { s.withRetired .bp with
      pc := if 0 < (s.reg rd).toInt then BitVec.ofNat 16 (2 * imm8.toNat) else s.pc + 2 } ∧
    exec (.bn rd imm8) s = .next { s.withRetired .bn with
      pc := if (s.reg rd).toInt < 0 then BitVec.ofNat 16 (2 * imm8.toNat) else s.pc + 2 } ∧
    exec (.bx rd imm8) s = .next { s.withRetired .bx with
      pc := if (s.reg rd).toInt ≠ 0 then BitVec.ofNat 16 (2 * imm8.toNat) else s.pc + 2 } ∧
    exec (.bz rd imm8) s = .next { s.withRetired .bz with
      pc := if (s.reg rd).toInt = 0 then BitVec.ofNat 16 (2 * imm8.toNat) else s.pc + 2 }

/-- R89: the words of J are J of the field imm11; it goes to `pc[15:12] ++ imm11 ++ 0`, from any `pc`. -/
def Obligations.PageJumpKeepsThePage : Prop :=
  (∀ w : Word, w &&& 0xF800 = 0xC000 → decodeWord w = .ok (.j (w.extractLsb' 0 11))) ∧
  ∀ (s : State) (imm11 : BitVec 11),
    exec (.j imm11) s = .next { s.withRetired .j with pc := s.pc.extractLsb' 12 4 ++ imm11 ++ 0#1 }

/-- R87, R88 (D8, D23): JR and JALR to any target but 0xFFFF complete; JALR's target is the register's value before the
link is written, also when the two registers are one. -/
def Obligations.RegisterJumpsGoToTheOldValue : Prop :=
  ∀ (s : State) (rd rs : Reg), s.reg rs ≠ 0xFFFF →
    exec (.jr rs) s = .next { s.withRetired .jr with pc := s.reg rs } ∧
    exec (.jalr rd rs) s = .next { s.withRetired .jalr with x := s.x.set rd (s.pc + 2), pc := s.reg rs }

/-- R100, R105, R106 (D11): JR and JALR to 0xFFFF end the run with SENTINEL_TARGET, with the counter and JALR's link
standing and `pc` kept. -/
def Obligations.JumpToTheSentinelEndsTheRun : Prop :=
  ∀ (s : State) (rd rs : Reg), s.reg rs = 0xFFFF →
    (∃ t, exec (.jr rs) s = .next t ∧ s.AbortsAt .jr .sentinelTarget t) ∧
    (∃ t, exec (.jalr rd rs) s = .next t ∧
      State.AbortsAt { s with x := s.x.set rd (s.pc + 2) } .jalr .sentinelTarget t)

/-- R20: every instruction that does not branch, jump or halt and meets no fatal condition goes on at `pc + 2`, which
wraps within 16 bits; so does an unknown opcode. -/
def Obligations.OtherInstructionsAdvanceByTwo : Prop :=
  (∀ (s : State) (i : Instr), isOdd s.pc = false → transfersControl i = false → s.endsWith i = none →
    ∃ t, exec i s = .next t ∧ t.pc.toNat = (s.pc.toNat + 2) % 65536) ∧
  (∀ (s : State) (e : DecodeError), s.run = .running → isOdd s.pc = false → decodeWord s.wordAtPc = .error e →
    ∃ t, step s = .next t ∧ t.pc.toNat = (s.pc.toNat + 2) % 65536)

/-- R21 (derived there): only JR and JALR place an odd value in `pc`. -/
def Obligations.OnlyRegisterJumpsMakeThePcOdd : Prop :=
  ∀ s t : State, step s = .next t → isOdd s.pc = false → isOdd t.pc = true →
    ∃ rs, s.reg rs = t.pc ∧ (s.Dispatches (.jr rs) ∨ ∃ rd, s.Dispatches (.jalr rd rs))

/-! ## HALT, PUT and the end of a run -/

/-- R91 (D10, D18): HALT completes the run: its counter is SET to 1, and `pc`, registers and memories stay. -/
def Obligations.HaltCompletesTheRun : Prop :=
  ∀ s : State, exec .halt s =
    .next { s with count := s.count.set Mnemonic.halt.index 1, events := s.events ++ [.trace .halt],
                   run := .terminated, reason := .halted }

/-- R92 (D19): PUT outputs the register's value and changes nothing else but its accounting and `pc`. The order of its two
events is left open (D20). -/
def Obligations.PutOutputsTheRegister : Prop :=
  ∀ (s : State) (rs : Reg), isOdd s.pc = false →
    ∃ es, exec (.put rs) s = .next { s.withRetired .put with events := es, pc := s.pc + 2 } ∧
      puts es = puts s.events ++ [s.reg rs] ∧ traces es = traces s.events ++ [.put] ∧ diags es = diags s.events

/-- R106 (D9, D10): a zero divisor of DIV or MOD and an odd address of LW or SW leave every register, every memory byte and
`pc` as they were; the instruction is counted and the run is over with the condition's reason. -/
def Obligations.FatalConditionLeavesRegistersAndMemory : Prop :=
  ∀ (s : State) (i : Instr) (r : Reason), s.endsWith i = some r → r ≠ .halted → r ≠ .sentinelTarget →
    ∃ t, exec i s = .next t ∧ s.AbortsAt i.mnemonic r t

/-- R100, R105 (D11, D12): a step ends the run with reason `r` exactly when the fetch is at an odd `pc` and `r` is
FETCH_MISALIGNED, or an instruction is dispatched that HALTs or meets the fatal condition of `r`. -/
def Obligations.RunEndsExactlyOnHaltOrFatalCondition : Prop :=
  ∀ (s t : State) (r : Reason), step s = .next t →
    ((t.run = .terminated ∧ t.reason = r) ↔
      (isOdd s.pc = true ∧ r = .fetchMisaligned) ∨ ∃ i, s.Dispatches i ∧ s.endsWith i = some r)

/-- R22 (D10): the step that ends the run keeps `pc`. -/
def Obligations.EndOfRunKeepsThePc : Prop :=
  ∀ s t : State, step s = .next t → t.run = .terminated → t.pc = s.pc

/-- R120: once the run is TERMINATED nothing wakes it and every piece of state keeps its final value. -/
def Obligations.TerminatedStateIsFinal : Prop :=
  ∀ (n m : Nat) (s : State), (runFor n s).run = .terminated → n ≤ m → runFor m s = runFor n s

/-! ## What an instruction may touch -/

/-- R18: an instruction writes no register but the one it names as written, not even that one when it is fatal, and reads
no register but those it names as read: another value in any other register changes nothing but that register. A step
that dispatches no instruction writes and reads none. -/
def Obligations.RegistersReadAndWrittenAreTheNamedOnes : Prop :=
  (∀ (i : Instr) (s t : State), exec i s = .next t →
    (∀ q, i.writtenReg ≠ some q → t.reg q = s.reg q) ∧
    (∀ r, s.endsWith i = some r → r ≠ .sentinelTarget → t.x = s.x) ∧
    (∀ q v, q ∉ i.readRegs →
      exec i (s.setReg q v) =
        .next (if i.writtenReg = some q ∧ (s.endsWith i = none ∨ s.endsWith i = some .sentinelTarget) then t
               else t.setReg q v))) ∧
  (∀ s t : State, step s = .next t → (∀ i, ¬ s.Dispatches i) →
    t.x = s.x ∧ ∀ q v, step (s.setReg q v) = .next (t.setReg q v))

/-- R26, R27, R28, R30 (D9, D14): an instruction changes no counter but its own, by one up, HALT's to 1; it changes neither
the latency table nor program memory. -/
def Obligations.OnlyTheOwnCounterChanges : Prop :=
  ∀ (i : Instr) (s t : State), exec i s = .next t →
    (∀ k, k ≠ i.mnemonic → t.counter k = s.counter k) ∧
    t.counter i.mnemonic = (if i = .halt then 1 else s.counter i.mnemonic + 1) ∧
    t.lat = s.lat ∧ t.imem = s.imem

/-- R32: a step appends events and never removes any, and reads none back; put comes from PUT with the register's value,
trace from every dispatched instruction, diag from unknown opcodes and fatal conditions. That an odd fetch (D12, log 15)
and a jump to 0xFFFF (D11, log 14) are among those (R96, R99, R105) are the spec's decisions, not R32's words. -/
def Obligations.EventsAreAppendedAndNeverReadBack : Prop :=
  ∀ s t : State, step s = .next t →
    ∃ new, t.events = s.events ++ new ∧
      (∀ es, step { s with events := es } = .next { t with events := es ++ new }) ∧
      (∀ v, Event.put v ∈ new ↔ ∃ rs, s.Dispatches (.put rs) ∧ s.reg rs = v) ∧
      (∀ m, Event.trace m ∈ new ↔ ∃ i, s.Dispatches i ∧ i.mnemonic = m) ∧
      ((∃ d, Event.diag d ∈ new) ↔
        isOdd s.pc = true ∨ (∃ e, decodeWord s.wordAtPc = .error e) ∨
          ∃ i r, s.Dispatches i ∧ s.endsWith i = some r ∧ r ≠ .halted)

/-- R25, R26, R28 ("Program access: none", R28 with D15): other counters, another latency table and another reason change
nothing of what a step does to registers, `pc`, memories, `run` and events. -/
def Obligations.CountersAndLatenciesNeverSteer : Prop :=
  ∀ (s t : State) (c : Vector Nat 22) (l : Latencies) (r : Reason), step s = .next t →
    ∃ c' r', step { s with count := c, lat := l, reason := r } = .next { t with count := c', lat := l, reason := r' }

/-- R49, R127: over any run program memory stays as it was, and a fetch looks at nothing in data memory: a program cannot
modify its own code. -/
def Obligations.ProgramsCannotModifyTheirCode : Prop :=
  ∀ (n : Nat) (s : State), (runFor n s).imem = s.imem ∧ ∀ m : Memory, fetch { s with dmem := m } = fetch s

/-! ## Invariant and accounting -/

/-- R34 (log 4): the reset state has the invariant. -/
def Obligations.ResetHasTheInvariant : Prop := State.reset.Inv

/-- R121, R122 (D16): the start of every run, whatever the image and the configuration, has the invariant. -/
def Obligations.EveryStartHasTheInvariant : Prop :=
  ∀ (image : List Byte) (c : LatencyConfig) (s : State), boot image c = .ok s → s.Inv

/-- R24 to R27, R32, R91, R99: every step keeps the invariant: canonical memories, reason NONE exactly while RUNNING, no
HALT counted while RUNNING, every counter equal to the number of its trace events, PUT's to the number of outputs. -/
def Obligations.EveryStepKeepsTheInvariant : Prop :=
  ∀ s t : State, s.Inv → step s = .next t → t.Inv

/-- R113, R99: under the invariant the total instruction count is the number of instructions traced. -/
def Obligations.InstructionTotalIsTheTraceLength : Prop :=
  ∀ s : State, s.Inv → s.instructions = (traces s.events).length

/-- R113, R128 (a fatal instruction counts too, D9; an unknown opcode costs nothing, D21): a dispatched instruction adds 1
to the instruction total and its cost to the cycle total; any other step adds nothing. With no HALT counted before. -/
def Obligations.StepCostsTheInstructionsLatency : Prop :=
  ∀ s t : State, step s = .next t → s.counter .halt = 0 →
    (∀ i, s.Dispatches i →
      t.instructions = s.instructions + 1 ∧ t.cycles = s.cycles + cost s.lat i.mnemonic) ∧
    ((∀ i, ¬ s.Dispatches i) → t.instructions = s.instructions ∧ t.cycles = s.cycles)

/-- R27 (D14): no counter ever decreases over a run. -/
def Obligations.CountersNeverDecrease : Prop :=
  ∀ (n : Nat) (s : State) (k : Mnemonic), s.Inv → s.counter k ≤ (runFor n s).counter k

/-! ## Start and result of a run -/

/-- R34 (D2, D13, D16, D17, log 4): every field of the reset state. -/
def Obligations.ResetValuesAreTheSpecs : Prop :=
  (∀ r, State.reset.reg r = 0) ∧ State.reset.pc = 0 ∧
  (∀ a, Memory.read State.reset.imem a = 0) ∧ (∀ a, Memory.read State.reset.dmem a = 0) ∧
  (∀ k, State.reset.counter k = 0) ∧ (∀ k, cost State.reset.lat k = 1) ∧
  State.reset.run = .running ∧ State.reset.reason = .none ∧ State.reset.events = []

/-- R122, R123, R28 (D15, D16): a run starts exactly when the image fits and no configured latency is negative; then byte
`a` of program memory is byte `a` of the image, or 0x00 beyond it, each latency is the configured one, or 1, and the rest
is as at reset. -/
def Obligations.BootPlacesTheImageAndTheLatencies : Prop :=
  ∀ (image : List Byte) (c : LatencyConfig),
    ((∃ s, boot image c = .ok s) ↔
      image.length ≤ 65536 ∧
      ∀ v ∈ [c.add, c.sub, c.and, c.nor, c.div, c.mul, c.mod, c.exp], 0 ≤ v.getD 1) ∧
    ∀ s, boot image c = .ok s →
      (∀ a, Memory.read s.imem a = image.getD a 0) ∧
      (s.lat.add : Int) = c.add.getD 1 ∧ (s.lat.sub : Int) = c.sub.getD 1 ∧
      (s.lat.and : Int) = c.and.getD 1 ∧ (s.lat.nor : Int) = c.nor.getD 1 ∧
      (s.lat.div : Int) = c.div.getD 1 ∧ (s.lat.mul : Int) = c.mul.getD 1 ∧
      (s.lat.mod : Int) = c.mod.getD 1 ∧ (s.lat.exp : Int) = c.exp.getD 1 ∧
      s = { State.reset with imem := s.imem, lat := s.lat }

/-- R103, R114, R115 (D25): the run of an image under a configuration has at most one output record, however long one
waits, and the record is there once the run is over. -/
def Obligations.RunHasOneOutputRecord : Prop :=
  ∀ (n m : Nat) (image : List Byte) (c : LatencyConfig),
    (∀ p q, recordOfRun n image c = .ok (some p) → recordOfRun m image c = .ok (some q) → p = q) ∧
    (∀ s, boot image c = .ok s → (runFor n s).run = .terminated → ∃ p, recordOfRun n image c = .ok (some p) ∧
      ∀ r : Reg, p.regs[r] = ((runFor n s).reg r).toInt)

/-- R115, R128 (D15): under two configurations that start, one image gives records that differ in the cycle total alone. -/
def Obligations.LatenciesChangeOnlyTheCycleTotal : Prop :=
  ∀ (n : Nat) (image : List Byte) (c d : LatencyConfig) (p : OutputRecord),
    recordOfRun n image c = .ok (some p) → (∃ s, boot image d = .ok s) →
    ∃ cyc, recordOfRun n image d = .ok (some { p with cycles := cyc })
end

