-- ==== Sys2Proof/Laws/State.lean ====
section
/-! SUPPORT. One lemma per field per update of the state, true by `rfl`, and the laws of the register and counter
accessors. -/

namespace Sys2Proof.Machine

variable (s : State)

/-! ## setReg -/

@[simp] theorem setReg_x (r : Reg) (v : Word) : (s.setReg r v).x = s.x.set r v := rfl
@[simp] theorem setReg_pc (r : Reg) (v : Word) : (s.setReg r v).pc = s.pc := rfl
@[simp] theorem setReg_imem (r : Reg) (v : Word) : (s.setReg r v).imem = s.imem := rfl
@[simp] theorem setReg_dmem (r : Reg) (v : Word) : (s.setReg r v).dmem = s.dmem := rfl
@[simp] theorem setReg_count (r : Reg) (v : Word) : (s.setReg r v).count = s.count := rfl
@[simp] theorem setReg_lat (r : Reg) (v : Word) : (s.setReg r v).lat = s.lat := rfl
@[simp] theorem setReg_run (r : Reg) (v : Word) : (s.setReg r v).run = s.run := rfl
@[simp] theorem setReg_reason (r : Reg) (v : Word) : (s.setReg r v).reason = s.reason := rfl
@[simp] theorem setReg_events (r : Reg) (v : Word) : (s.setReg r v).events = s.events := rfl
@[simp] theorem setReg_counter (r : Reg) (v : Word) (q : Mnemonic) : (s.setReg r v).counter q = s.counter q := rfl

/-! ## setCounter -/

@[simp] theorem setCounter_x (k : Mnemonic) (n : Nat) : (s.setCounter k n).x = s.x := rfl
@[simp] theorem setCounter_pc (k : Mnemonic) (n : Nat) : (s.setCounter k n).pc = s.pc := rfl
@[simp] theorem setCounter_imem (k : Mnemonic) (n : Nat) : (s.setCounter k n).imem = s.imem := rfl
@[simp] theorem setCounter_dmem (k : Mnemonic) (n : Nat) : (s.setCounter k n).dmem = s.dmem := rfl
@[simp] theorem setCounter_count (k : Mnemonic) (n : Nat) : (s.setCounter k n).count = s.count.set k.index n := rfl
@[simp] theorem setCounter_lat (k : Mnemonic) (n : Nat) : (s.setCounter k n).lat = s.lat := rfl
@[simp] theorem setCounter_run (k : Mnemonic) (n : Nat) : (s.setCounter k n).run = s.run := rfl
@[simp] theorem setCounter_reason (k : Mnemonic) (n : Nat) : (s.setCounter k n).reason = s.reason := rfl
@[simp] theorem setCounter_events (k : Mnemonic) (n : Nat) : (s.setCounter k n).events = s.events := rfl
@[simp] theorem setCounter_reg (k : Mnemonic) (n : Nat) (q : Reg) : (s.setCounter k n).reg q = s.reg q := rfl

/-! ## emit -/

@[simp] theorem emit_x (e : Event) : (s.emit e).x = s.x := rfl
@[simp] theorem emit_pc (e : Event) : (s.emit e).pc = s.pc := rfl
@[simp] theorem emit_imem (e : Event) : (s.emit e).imem = s.imem := rfl
@[simp] theorem emit_dmem (e : Event) : (s.emit e).dmem = s.dmem := rfl
@[simp] theorem emit_count (e : Event) : (s.emit e).count = s.count := rfl
@[simp] theorem emit_lat (e : Event) : (s.emit e).lat = s.lat := rfl
@[simp] theorem emit_run (e : Event) : (s.emit e).run = s.run := rfl
@[simp] theorem emit_reason (e : Event) : (s.emit e).reason = s.reason := rfl
@[simp] theorem emit_events (e : Event) : (s.emit e).events = s.events ++ [e] := rfl
@[simp] theorem emit_reg (e : Event) (q : Reg) : (s.emit e).reg q = s.reg q := rfl
@[simp] theorem emit_counter (e : Event) (q : Mnemonic) : (s.emit e).counter q = s.counter q := rfl

/-! ## setPc -/

@[simp] theorem setPc_x (t : Word) : (s.setPc t).x = s.x := rfl
@[simp] theorem setPc_pc (t : Word) : (s.setPc t).pc = t := rfl
@[simp] theorem setPc_imem (t : Word) : (s.setPc t).imem = s.imem := rfl
@[simp] theorem setPc_dmem (t : Word) : (s.setPc t).dmem = s.dmem := rfl
@[simp] theorem setPc_count (t : Word) : (s.setPc t).count = s.count := rfl
@[simp] theorem setPc_lat (t : Word) : (s.setPc t).lat = s.lat := rfl
@[simp] theorem setPc_run (t : Word) : (s.setPc t).run = s.run := rfl
@[simp] theorem setPc_reason (t : Word) : (s.setPc t).reason = s.reason := rfl
@[simp] theorem setPc_events (t : Word) : (s.setPc t).events = s.events := rfl
@[simp] theorem setPc_reg (t : Word) (q : Reg) : (s.setPc t).reg q = s.reg q := rfl
@[simp] theorem setPc_counter (t : Word) (q : Mnemonic) : (s.setPc t).counter q = s.counter q := rfl

/-! ## storeWord -/

@[simp] theorem storeWord_x (a v : Word) : (s.storeWord a v).x = s.x := rfl
@[simp] theorem storeWord_pc (a v : Word) : (s.storeWord a v).pc = s.pc := rfl
@[simp] theorem storeWord_imem (a v : Word) : (s.storeWord a v).imem = s.imem := rfl
@[simp] theorem storeWord_dmem (a v : Word) : (s.storeWord a v).dmem = Memory.writeWord s.dmem a v := rfl
@[simp] theorem storeWord_count (a v : Word) : (s.storeWord a v).count = s.count := rfl
@[simp] theorem storeWord_lat (a v : Word) : (s.storeWord a v).lat = s.lat := rfl
@[simp] theorem storeWord_run (a v : Word) : (s.storeWord a v).run = s.run := rfl
@[simp] theorem storeWord_reason (a v : Word) : (s.storeWord a v).reason = s.reason := rfl
@[simp] theorem storeWord_events (a v : Word) : (s.storeWord a v).events = s.events := rfl
@[simp] theorem storeWord_reg (a v : Word) (q : Reg) : (s.storeWord a v).reg q = s.reg q := rfl
@[simp] theorem storeWord_counter (a v : Word) (q : Mnemonic) : (s.storeWord a v).counter q = s.counter q := rfl

/-! ## dispatched -/

@[simp] theorem dispatched_x (k : Mnemonic) : (s.dispatched k).x = s.x := rfl
@[simp] theorem dispatched_pc (k : Mnemonic) : (s.dispatched k).pc = s.pc := rfl
@[simp] theorem dispatched_imem (k : Mnemonic) : (s.dispatched k).imem = s.imem := rfl
@[simp] theorem dispatched_dmem (k : Mnemonic) : (s.dispatched k).dmem = s.dmem := rfl
@[simp] theorem dispatched_count (k : Mnemonic) : (s.dispatched k).count = s.count := rfl
@[simp] theorem dispatched_lat (k : Mnemonic) : (s.dispatched k).lat = s.lat := rfl
@[simp] theorem dispatched_run (k : Mnemonic) : (s.dispatched k).run = s.run := rfl
@[simp] theorem dispatched_reason (k : Mnemonic) : (s.dispatched k).reason = s.reason := rfl
@[simp] theorem dispatched_events (k : Mnemonic) : (s.dispatched k).events = s.events ++ [.trace k] := rfl
@[simp] theorem dispatched_reg (k : Mnemonic) (q : Reg) : (s.dispatched k).reg q = s.reg q := rfl
@[simp] theorem dispatched_counter (k : Mnemonic) (q : Mnemonic) : (s.dispatched k).counter q = s.counter q := rfl

/-! ## counted -/

@[simp] theorem counted_x (k : Mnemonic) : (s.counted k).x = s.x := rfl
@[simp] theorem counted_pc (k : Mnemonic) : (s.counted k).pc = s.pc := rfl
@[simp] theorem counted_imem (k : Mnemonic) : (s.counted k).imem = s.imem := rfl
@[simp] theorem counted_dmem (k : Mnemonic) : (s.counted k).dmem = s.dmem := rfl
@[simp] theorem counted_count (k : Mnemonic) : (s.counted k).count = s.count.set k.index (s.counter k + 1) := rfl
@[simp] theorem counted_lat (k : Mnemonic) : (s.counted k).lat = s.lat := rfl
@[simp] theorem counted_run (k : Mnemonic) : (s.counted k).run = s.run := rfl
@[simp] theorem counted_reason (k : Mnemonic) : (s.counted k).reason = s.reason := rfl
@[simp] theorem counted_events (k : Mnemonic) : (s.counted k).events = s.events ++ [.trace k] := rfl
@[simp] theorem counted_reg (k : Mnemonic) (q : Reg) : (s.counted k).reg q = s.reg q := rfl

/-! ## terminate -/

@[simp] theorem terminate_x (r : Reason) : (s.terminate r).x = s.x := rfl
@[simp] theorem terminate_pc (r : Reason) : (s.terminate r).pc = s.pc := rfl
@[simp] theorem terminate_imem (r : Reason) : (s.terminate r).imem = s.imem := rfl
@[simp] theorem terminate_dmem (r : Reason) : (s.terminate r).dmem = s.dmem := rfl
@[simp] theorem terminate_count (r : Reason) : (s.terminate r).count = s.count := rfl
@[simp] theorem terminate_lat (r : Reason) : (s.terminate r).lat = s.lat := rfl
@[simp] theorem terminate_run (r : Reason) : (s.terminate r).run = .terminated := rfl
@[simp] theorem terminate_reason (r : Reason) : (s.terminate r).reason = r := rfl
@[simp] theorem terminate_events (r : Reason) : (s.terminate r).events = s.events := rfl
@[simp] theorem terminate_reg (r : Reason) (q : Reg) : (s.terminate r).reg q = s.reg q := rfl
@[simp] theorem terminate_counter (r : Reason) (q : Mnemonic) : (s.terminate r).counter q = s.counter q := rfl

/-! ## abort -/

@[simp] theorem abort_x (r : Reason) : (s.abort r).x = s.x := rfl
@[simp] theorem abort_pc (r : Reason) : (s.abort r).pc = s.pc := rfl
@[simp] theorem abort_imem (r : Reason) : (s.abort r).imem = s.imem := rfl
@[simp] theorem abort_dmem (r : Reason) : (s.abort r).dmem = s.dmem := rfl
@[simp] theorem abort_count (r : Reason) : (s.abort r).count = s.count := rfl
@[simp] theorem abort_lat (r : Reason) : (s.abort r).lat = s.lat := rfl
@[simp] theorem abort_run (r : Reason) : (s.abort r).run = .terminated := rfl
@[simp] theorem abort_reason (r : Reason) : (s.abort r).reason = r := rfl
@[simp] theorem abort_events (r : Reason) : (s.abort r).events = s.events ++ [.diag (.fatal r)] := rfl
@[simp] theorem abort_reg (r : Reason) (q : Reg) : (s.abort r).reg q = s.reg q := rfl
@[simp] theorem abort_counter (r : Reason) (q : Mnemonic) : (s.abort r).counter q = s.counter q := rfl

/-! ## endMisaligned -/

@[simp] theorem endMisaligned_x : (endMisaligned s).x = s.x := rfl
@[simp] theorem endMisaligned_pc : (endMisaligned s).pc = s.pc := rfl
@[simp] theorem endMisaligned_imem : (endMisaligned s).imem = s.imem := rfl
@[simp] theorem endMisaligned_dmem : (endMisaligned s).dmem = s.dmem := rfl
@[simp] theorem endMisaligned_count : (endMisaligned s).count = s.count := rfl
@[simp] theorem endMisaligned_lat : (endMisaligned s).lat = s.lat := rfl
@[simp] theorem endMisaligned_run : (endMisaligned s).run = .terminated := rfl
@[simp] theorem endMisaligned_reason : (endMisaligned s).reason = .fetchMisaligned := rfl
@[simp] theorem endMisaligned_events : (endMisaligned s).events = s.events ++ [.diag (.fetchMisaligned s.pc)] := rfl
@[simp] theorem endMisaligned_reg (q : Reg) : (endMisaligned s).reg q = s.reg q := rfl
@[simp] theorem endMisaligned_counter (q : Mnemonic) : (endMisaligned s).counter q = s.counter q := rfl

/-! ## placeWord -/

@[simp] theorem placeWord_x (w : Word) : (placeWord s w).x = s.x := rfl
@[simp] theorem placeWord_pc (w : Word) : (placeWord s w).pc = s.pc := rfl
@[simp] theorem placeWord_imem (w : Word) : (placeWord s w).imem = Memory.writeWord s.imem s.pc w := rfl
@[simp] theorem placeWord_dmem (w : Word) : (placeWord s w).dmem = s.dmem := rfl
@[simp] theorem placeWord_count (w : Word) : (placeWord s w).count = s.count := rfl
@[simp] theorem placeWord_lat (w : Word) : (placeWord s w).lat = s.lat := rfl
@[simp] theorem placeWord_run (w : Word) : (placeWord s w).run = s.run := rfl
@[simp] theorem placeWord_reason (w : Word) : (placeWord s w).reason = s.reason := rfl
@[simp] theorem placeWord_events (w : Word) : (placeWord s w).events = s.events := rfl
@[simp] theorem placeWord_reg (w : Word) (q : Reg) : (placeWord s w).reg q = s.reg q := rfl
@[simp] theorem placeWord_counter (w : Word) (q : Mnemonic) : (placeWord s w).counter q = s.counter q := rfl

/-! ## The accessors -/

/-- No register is special: a written register reads as written (10_state.md R17). -/
@[simp] theorem reg_setReg_self (r : Reg) (v : Word) : (s.setReg r v).reg r = v := by
  simp [State.reg, State.setReg]

theorem reg_setReg_of_ne {r q : Reg} (v : Word) (h : q ≠ r) : (s.setReg r v).reg q = s.reg q := by
  simp [State.reg, State.setReg, Vector.getElem_set_ne, Fin.val_ne_of_ne h.symm]

theorem reg_setReg (r q : Reg) (v : Word) : (s.setReg r v).reg q = if q = r then v else s.reg q := by
  split
  case isTrue h => rw [h, reg_setReg_self]
  case isFalse h => exact reg_setReg_of_ne s v h

/-- Two kinds never share a counter (10_state.md R26). -/
theorem index_injective {k q : Mnemonic} (h : k.index = q.index) : k = q := by
  cases k <;> cases q <;> first | rfl | exact absurd h (by decide)

@[simp] theorem counter_setCounter_self (k : Mnemonic) (n : Nat) : (s.setCounter k n).counter k = n := by
  simp [State.counter, State.setCounter]

theorem counter_setCounter_of_ne {k q : Mnemonic} (n : Nat) (h : q ≠ k) :
    (s.setCounter k n).counter q = s.counter q := by
  have hne : (k.index : Nat) ≠ q.index := fun e => h (index_injective (Fin.ext e)).symm
  simp [State.counter, State.setCounter, Vector.getElem_set_ne, hne]

@[simp] theorem counter_counted_self (k : Mnemonic) : (s.counted k).counter k = s.counter k + 1 :=
  counter_setCounter_self _ k _

theorem counter_counted_of_ne {k q : Mnemonic} (h : q ≠ k) : (s.counted k).counter q = s.counter q :=
  counter_setCounter_of_ne _ _ h

/-! ## The output record -/

@[simp] theorem signedRegs_getElem (r : Reg) : s.signedRegs[r] = s16 (s.reg r) :=
  match r with
  | 0 | 1 | 2 | 3 | 4 | 5 | 6 | 7 => rfl

end Sys2Proof.Machine
end

