-- ==== Sys2Proof/Laws/Memory.lean ====
section
/-! SUPPORT. The laws of memory: what a byte and a word read as after a write, and that every operation keeps the
canonical form. -/

namespace Sys2Proof.Machine

variable {m : Memory} {a b : Nat} {v : Byte}

/-! ## One byte -/

theorem filter_avoids (m : Memory) (a : Nat) : ∀ c ∈ m.filter (fun c => c.1 != a), c.1 ≠ a := by
  intro c hc
  simpa using (List.mem_filter.mp hc).2

theorem read_of_avoids (h : ∀ c ∈ m, c.1 ≠ a) : Memory.read m a = 0 := by
  induction m with
  | nil => rfl
  | cons c m ih =>
    have hc := h c (by simp)
    simpa [Memory.read, hc] using ih fun d hd => h d (by simp [hd])

theorem read_filter_of_ne (h : b ≠ a) : Memory.read (m.filter (fun c => c.1 != a)) b = Memory.read m b := by
  induction m with
  | nil => rfl
  | cons c m ih =>
    by_cases hc : c.1 = a
    · simp [hc, Memory.read, ih, h.symm]
    · simp [hc, Memory.read, ih]

theorem read_insert (h : ∀ c ∈ m, c.1 ≠ a) :
    Memory.read (Memory.insert a v m) b = if a = b then v else Memory.read m b := by
  induction m with
  | nil => simp [Memory.insert, Memory.read]
  | cons c m ih =>
    have hc : c.1 ≠ a := h c (by simp)
    have ih := ih fun d hd => h d (by simp [hd])
    unfold Memory.insert
    split
    · simp [Memory.read]
    · by_cases hb : c.1 = b
      · have : a ≠ b := fun e => hc (hb.trans e.symm)
        simp [Memory.read, hb, this]
      · simp [Memory.read, hb, ih]

/-- A byte reads as written, and every other byte as before, in every memory. -/
theorem read_write : Memory.read (Memory.write m a v) b = if a = b then v else Memory.read m b := by
  unfold Memory.write
  by_cases hb : a = b
  · subst hb
    split
    case isTrue hv => simp [read_of_avoids (filter_avoids m a), hv]
    case isFalse => simp [read_insert (filter_avoids m a)]
  · split
    · exact read_filter_of_ne (Ne.symm hb)
    · rw [read_insert (filter_avoids m a)]
      simp only [hb, if_false]
      exact read_filter_of_ne (Ne.symm hb)

/-! ## The canonical form -/

theorem mem_insert {c : Host.Cell} : c ∈ Memory.insert a v m ↔ c = (a, v) ∨ c ∈ m := by
  induction m with
  | nil => simp [Memory.insert]
  | cons d m ih =>
    unfold Memory.insert
    split
    · simp
    · simp [ih]; tauto

theorem insert_pairwise (hm : m.Pairwise (fun c d => c.1 < d.1)) (h : ∀ c ∈ m, c.1 ≠ a) :
    (Memory.insert a v m).Pairwise (fun c d => c.1 < d.1) := by
  induction m with
  | nil => simp [Memory.insert]
  | cons c m ih =>
    obtain ⟨hc, hm⟩ := List.pairwise_cons.mp hm
    have hca : c.1 ≠ a := h c (by simp)
    unfold Memory.insert
    split
    case isTrue hlt =>
      refine List.pairwise_cons.mpr ⟨fun d hd => ?_, List.pairwise_cons.mpr ⟨hc, hm⟩⟩
      rcases List.mem_cons.mp hd with rfl | hd
      · exact hlt
      · exact Nat.lt_trans hlt (hc d hd)
    case isFalse hge =>
      refine List.pairwise_cons.mpr ⟨fun d hd => ?_, ih hm fun d hd => h d (by simp [hd])⟩
      rcases mem_insert.mp hd with rfl | hd
      · exact Nat.lt_of_le_of_ne (Nat.le_of_not_lt hge) hca
      · exact hc d hd

/-- A write inside the 65536 bytes keeps the canonical form. -/
theorem write_wf (hm : Memory.wf m) (ha : a < Config.dmemSize) : Memory.wf (Memory.write m a v) := by
  have hf : Memory.wf (m.filter (fun c => c.1 != a)) :=
    ⟨hm.1.filter _, fun c hc => hm.2 c (List.mem_filter.mp hc).1⟩
  unfold Memory.write
  split
  · exact hf
  case isFalse hv =>
    refine ⟨insert_pairwise hf.1 (filter_avoids m a), fun c hc => ?_⟩
    rcases mem_insert.mp hc with rfl | hc
    · exact ⟨ha, hv⟩
    · exact hf.2 c hc

theorem writeWord_wf (hm : Memory.wf m) (p w : Word) : Memory.wf (Memory.writeWord m p w) :=
  write_wf (write_wf hm p.isLt) (p + 1).isLt

theorem reset_memories_wf : Memory.wf State.reset.imem ∧ Memory.wf State.reset.dmem := by decide

/-! ## Words -/

/-- The next byte address is another address. -/
theorem succ_toNat_ne (p : Word) : (p + 1).toNat ≠ p.toNat := by
  intro h
  have := BitVec.eq_of_toNat_eq h
  simp at this

theorem read_writeWord (p w : Word) :
    Memory.read (Memory.writeWord m p w) b =
      if (p + 1).toNat = b then w.extractLsb' 0 8
      else if p.toNat = b then w.extractLsb' 8 8 else Memory.read m b := by
  simp only [Memory.writeWord, read_write]

theorem append_bytes (w : Word) : w.extractLsb' 8 8 ++ w.extractLsb' 0 8 = w := by
  apply BitVec.eq_of_getLsbD_eq
  intro i hi
  rw [BitVec.getLsbD_append]
  by_cases h : i < 8
  · simp [h]
  · have : i - 8 < 8 := by omega
    simp [h, this, show 8 + (i - 8) = i by omega]

/-- A word reads as written (20_memory.md R46). -/
@[simp] theorem readWord_writeWord_self (p w : Word) : Memory.readWord (Memory.writeWord m p w) p = w := by
  have h := succ_toNat_ne p
  simp only [Memory.readWord, read_writeWord]
  rw [if_neg h, if_pos True.intro, if_pos True.intro, append_bytes]

/-! ## A laid-out image -/

theorem ofBytes_bounds (bs : List Byte) :
    ∀ a, ∀ c ∈ Memory.ofBytes a bs, a ≤ c.1 ∧ c.1 < a + bs.length ∧ c.2 ≠ 0 := by
  induction bs with
  | nil => intro a c hc; simp [Memory.ofBytes] at hc
  | cons b bs ih =>
    intro a c hc
    unfold Memory.ofBytes at hc
    split at hc
    · obtain ⟨h1, h2, h3⟩ := ih _ c hc
      simp only [List.length_cons]
      exact ⟨by omega, by omega, h3⟩
    case isFalse hb =>
      rcases List.mem_cons.mp hc with rfl | hc
      · exact ⟨Nat.le_refl a, by simp, hb⟩
      · obtain ⟨h1, h2, h3⟩ := ih _ c hc
        simp only [List.length_cons]
        exact ⟨by omega, by omega, h3⟩

theorem ofBytes_pairwise (bs : List Byte) : ∀ a, (Memory.ofBytes a bs).Pairwise (fun c d => c.1 < d.1) := by
  induction bs with
  | nil => intro a; simp [Memory.ofBytes]
  | cons b bs ih =>
    intro a
    unfold Memory.ofBytes
    split
    · exact ih _
    · exact List.pairwise_cons.mpr ⟨fun d hd => (ofBytes_bounds bs _ d hd).1, ih _⟩

/-- An image that fits is laid out in the canonical form. -/
theorem ofBytes_wf (bs : List Byte) (h : bs.length ≤ Config.imemSize) : Memory.wf (Memory.ofBytes 0 bs) :=
  ⟨ofBytes_pairwise bs 0, fun c hc => by
    have hc := ofBytes_bounds bs 0 c hc
    have : Config.dmemSize = Config.imemSize := rfl
    exact ⟨by omega, hc.2.2⟩⟩

end Sys2Proof.Machine
end

