-- ==== Sys2Proof/Laws/Ops.lean ====
section
/-! SUPPORT. What the shared operations do, said once: committing an outcome, the sequential and the branch ends of a
meaning, and that every meaning ends in a committed outcome. -/

namespace Sys2Proof.Machine

variable (s : State)

/-! ## Committing (45_fetch_execute.md R100) -/

theorem complete_next {o : HandlerOutcome} {t : State} : complete s o = .next t ↔ t = commit s o := by
  simp [complete, eq_comm]

theorem commit_continueAt {t : Word} (h : t ≠ 0xFFFF) : commit s (.continueAt t) = s.setPc t :=
  if_neg h

@[simp] theorem commit_sentinel : commit s (.continueAt 0xFFFF) = s.abort .sentinelTarget := by
  simp [commit]

@[simp] theorem commit_halt : commit s .halt = s.terminate .halted := rfl

@[simp] theorem commit_fatal (r : Reason) : commit s (.fatal r) = s.abort r := rfl

/-- Everything a commit can do: move `pc`, or end the run in one of three ways. -/
theorem commit_cases (o : HandlerOutcome) :
    (∃ t, o = .continueAt t ∧ t ≠ 0xFFFF ∧ commit s o = s.setPc t) ∨
    (o = .continueAt 0xFFFF ∧ commit s o = s.abort .sentinelTarget) ∨
    (o = .halt ∧ commit s o = s.terminate .halted) ∨
    (∃ r, o = .fatal r ∧ commit s o = s.abort r) := by
  cases o with
  | continueAt t =>
    by_cases h : t = 0xFFFF
    · subst h; exact .inr (.inl ⟨rfl, commit_sentinel s⟩)
    · exact .inl ⟨t, rfl, h, commit_continueAt s h⟩
  | halt => exact .inr (.inr (.inl ⟨rfl, rfl⟩))
  | fatal r => exact .inr (.inr (.inr ⟨r, rfl, rfl⟩))

@[simp] theorem commit_x (o : HandlerOutcome) : (commit s o).x = s.x := by
  cases o <;> simp [commit]; split <;> rfl

@[simp] theorem commit_imem (o : HandlerOutcome) : (commit s o).imem = s.imem := by
  cases o <;> simp [commit]; split <;> rfl

@[simp] theorem commit_dmem (o : HandlerOutcome) : (commit s o).dmem = s.dmem := by
  cases o <;> simp [commit]; split <;> rfl

@[simp] theorem commit_count (o : HandlerOutcome) : (commit s o).count = s.count := by
  cases o <;> simp [commit]; split <;> rfl

@[simp] theorem commit_lat (o : HandlerOutcome) : (commit s o).lat = s.lat := by
  cases o <;> simp [commit]; split <;> rfl

@[simp] theorem commit_reg (o : HandlerOutcome) (q : Reg) : (commit s o).reg q = s.reg q := by
  simp [State.reg]

@[simp] theorem commit_counter (o : HandlerOutcome) (q : Mnemonic) : (commit s o).counter q = s.counter q := by
  simp [State.counter]

/-! ## Targets that are never the sentinel -/

theorem ne_sentinel_of_even {a : Word} (h : isOdd a = false) : a ≠ 0xFFFF := by
  rintro rfl
  revert h; decide

/-- Sequential advance from an even address is even (10_state.md R21). -/
theorem nextPc_even (h : isOdd s.pc = false) : isOdd s.nextPc = false := by
  simp only [isOdd, State.nextPc, BitVec.getLsbD_eq_getElem (show 0 < 16 by decide)] at *
  have : (s.pc + 2)[0] = s.pc[0] := by
    simp only [BitVec.getElem_eq_testBit_toNat, BitVec.toNat_add]
    simp [Nat.testBit_zero]
  rw [this, h]

/-- A branch target is even (43_control_transfer.md R81). -/
theorem branchTarget_even (imm8 : BitVec 8) : isOdd (branchTarget imm8) = false := by
  simp [isOdd, branchTarget]

/-- J's target is even (43_control_transfer.md R89). -/
theorem pageTarget_even (pc : Word) (imm11 : BitVec 11) : isOdd (pageTarget pc imm11) = false := by
  simp [isOdd, pageTarget]

/-! ## The two common ends of a meaning -/

/-- From an even `pc`, a register write that goes on in sequence completes (40_arithmetic.md R64, 42_immediate.md
R77). -/
theorem writeAndContinue_next (k : Mnemonic) (rd : Reg) (v : Word) (h : isOdd s.pc = false) :
    writeAndContinue k rd v s = .next (((s.counted k).setReg rd v).setPc s.nextPc) := by
  rw [writeAndContinue, complete, commit_continueAt _ (ne_sentinel_of_even (nextPc_even s h))]

/-- From an even `pc`, a conditional branch completes (43_control_transfer.md R82). -/
theorem branchIf_next (k : Mnemonic) (taken : Bool) (imm8 : BitVec 8) (h : isOdd s.pc = false) :
    branchIf k taken imm8 s = .next ((s.counted k).setPc (if taken then branchTarget imm8 else s.nextPc)) := by
  rw [branchIf, complete, commit_continueAt]
  cases taken
  · simpa using ne_sentinel_of_even (nextPc_even s h)
  · simpa using ne_sentinel_of_even (branchTarget_even imm8)

/-! ## Every meaning ends in a committed outcome -/

/-- What the handler of `i` makes of the counted state before its outcome is committed: nothing, one register write,
one word stored, or one value output; or HALT's own counting. -/
theorem exec_cases (i : Instr) :
    (i ≠ .halt ∧ ∃ o, exec i s = .next (commit (s.counted i.mnemonic) o)) ∨
    (∃ rd v o, i.writtenReg = some rd ∧ exec i s = .next (commit ((s.counted i.mnemonic).setReg rd v) o)) ∨
    (∃ rs rt o, i = .sw rs rt ∧
      exec i s = .next (commit ((s.counted .sw).storeWord (dataAddress s rs) (s.reg rt)) o)) ∨
    (∃ rs o, i = .put rs ∧ exec i s = .next (commit ((s.counted .put).emit (.put (s.reg rs))) o)) ∨
    (i = .halt ∧ exec i s = .next (((s.dispatched .halt).setCounter .halt 1).terminate .halted)) := by
  cases i with
  | add rd _ _ => exact .inr (.inl ⟨rd, _, _, rfl, rfl⟩)
  | sub rd _ _ => exact .inr (.inl ⟨rd, _, _, rfl, rfl⟩)
  | and rd _ _ => exact .inr (.inl ⟨rd, _, _, rfl, rfl⟩)
  | nor rd _ _ => exact .inr (.inl ⟨rd, _, _, rfl, rfl⟩)
  | mul rd _ _ => exact .inr (.inl ⟨rd, _, _, rfl, rfl⟩)
  | exp rd _ _ => exact .inr (.inl ⟨rd, _, _, rfl, rfl⟩)
  | liz rd _ => exact .inr (.inl ⟨rd, _, _, rfl, rfl⟩)
  | lis rd _ => exact .inr (.inl ⟨rd, _, _, rfl, rfl⟩)
  | lui rd _ => exact .inr (.inl ⟨rd, _, _, rfl, rfl⟩)
  | jalr rd _ => exact .inr (.inl ⟨rd, _, _, rfl, rfl⟩)
  | div rd _ rt =>
    by_cases h : isZeroDivisor (s.reg rt)
    · exact .inl ⟨nofun, .fatal .divideByZero, by simp [exec, execDiv, h, complete, Instr.mnemonic]⟩
    · exact .inr (.inl ⟨rd, _, _, rfl, by simp only [exec, execDiv, h]; rfl⟩)
  | mod rd _ rt =>
    by_cases h : isZeroDivisor (s.reg rt)
    · exact .inl ⟨nofun, .fatal .moduloByZero, by simp [exec, execMod, h, complete, Instr.mnemonic]⟩
    · exact .inr (.inl ⟨rd, _, _, rfl, by simp only [exec, execMod, h]; rfl⟩)
  | lw rd rs =>
    by_cases h : isOdd (dataAddress s rs)
    · exact .inl ⟨nofun, .fatal .unalignedAccess, by simp [exec, execLw, h, complete, Instr.mnemonic]⟩
    · exact .inr (.inl ⟨rd, _, _, rfl, by simp only [exec, execLw, h]; rfl⟩)
  | sw rs rt =>
    by_cases h : isOdd (dataAddress s rs)
    · exact .inl ⟨nofun, .fatal .unalignedAccess, by simp [exec, execSw, h, complete, Instr.mnemonic]⟩
    · exact .inr (.inr (.inl ⟨rs, rt, _, rfl, by simp only [exec, execSw, h]; rfl⟩))
  | bp _ _ => exact .inl ⟨nofun, _, rfl⟩
  | bn _ _ => exact .inl ⟨nofun, _, rfl⟩
  | bx _ _ => exact .inl ⟨nofun, _, rfl⟩
  | bz _ _ => exact .inl ⟨nofun, _, rfl⟩
  | jr _ => exact .inl ⟨nofun, _, rfl⟩
  | j _ => exact .inl ⟨nofun, _, rfl⟩
  | put rs => exact .inr (.inr (.inr (.inl ⟨rs, _, rfl, rfl⟩)))
  | halt => exact .inr (.inr (.inr (.inr ⟨rfl, rfl⟩)))

/-! ## The step -/

/-- Everything a step that gives a next state can do (45_fetch_execute.md R101). -/
theorem step_cases {t : State} (h : step s = .next t) :
    s.run = .running ∧
    ((isOdd s.pc = true ∧ t = endMisaligned s) ∨
     (isOdd s.pc = false ∧ ∃ i, decodeWord (Memory.readWord s.imem s.pc) = .ok i ∧ exec i s = .next t) ∨
     (isOdd s.pc = false ∧ ∃ e, decodeWord (Memory.readWord s.imem s.pc) = .error e ∧ t = skipUnknown s e)) := by
  unfold step at h
  split at h
  · simp at h
  case h_2 hr =>
    refine ⟨hr, ?_⟩
    by_cases ho : isOdd s.pc
    · simp [fetch, ho] at h
      exact .inl ⟨ho, h.symm⟩
    · simp only [fetch, ho, Bool.false_eq_true, if_false] at h
      cases hd : decodeWord (Memory.readWord s.imem s.pc) with
      | ok i => rw [hd] at h; exact .inr (.inl ⟨by simpa using ho, i, rfl, h⟩)
      | error e => rw [hd] at h; exact .inr (.inr ⟨by simpa using ho, e, rfl, by simpa using h.symm⟩)

end Sys2Proof.Machine
end

