-- ==== Sys2Proof/Laws/Decode.lean ====
section
/-! SUPPORT. The opcode map and the fields of an encoded word. -/

namespace Sys2Proof

/-- Two kinds never share an opcode (30_encoding.md R57). -/
theorem opcode_injective {k m : Mnemonic} (h : k.opcode = m.opcode) : k = m := by
  cases k <;> cases m <;> first | rfl | exact absurd h (by decide)

@[simp] theorem ofOpcode_opcode (m : Mnemonic) : Mnemonic.ofOpcode m.opcode = some m := by
  cases m <;> rfl

/-- The opcode map read backwards is the opcode map (30_encoding.md R58). -/
theorem ofOpcode_eq_some {op : BitVec 5} {m : Mnemonic} : Mnemonic.ofOpcode op = some m ↔ m.opcode = op := by
  constructor
  · intro h
    have := List.find?_some h
    simpa using this
  · rintro rfl; exact ofOpcode_opcode m

@[simp] theorem decodeFields_mnemonic (w : Word) (m : Mnemonic) : (m.decodeFields w).mnemonic = m := by
  cases m <;> rfl

/-- What a word decodes to, said once. -/
theorem decodeWord_eq_ok {w : Word} {i : Instr} :
    decodeWord w = .ok i ↔ i.mnemonic.opcode = opcodeField w ∧ i.mnemonic.decodeFields w = i := by
  unfold decodeWord
  constructor
  · intro h
    cases hm : Mnemonic.ofOpcode (opcodeField w) with
    | none => simp [hm] at h
    | some m =>
      rw [hm] at h
      have h : m.decodeFields w = i := by simpa using h
      subst h
      exact ⟨by simpa using ofOpcode_eq_some.mp hm, by simp⟩
  · rintro ⟨h1, h2⟩
    rw [ofOpcode_eq_some.mpr h1]
    simp [h2]

/-! ## The fields of an encoded word -/

/-- A placed field, bit by bit. -/
theorem getLsbD_placed {n : Nat} (v : BitVec n) (lo k : Nat) (hk : k < 16) :
    (placed v lo).getLsbD k = (decide (lo ≤ k) && v.getLsbD (k - lo)) := by
  by_cases h : lo ≤ k
  · have h1 : ¬ k < lo := by omega
    simp [placed, h, h1, hk]
  · have h1 : k < lo := by omega
    simp [placed, h, h1, hk]

@[simp] theorem opcodeField_encodeR (m : Mnemonic) (rd rs rt : Reg) : opcodeField (encodeR m rd rs rt) = m.opcode := by
  apply BitVec.eq_of_getLsbD_eq; intro i hi
  simp only [opcodeField, encodeR, BitVec.getLsbD_extractLsb', BitVec.getLsbD_or,
    getLsbD_placed _ _ (11 + i) (by omega)]
  rw [BitVec.getLsbD_of_ge (regBits rd) _ (by omega), BitVec.getLsbD_of_ge (regBits rs) _ (by omega),
    BitVec.getLsbD_of_ge (regBits rt) _ (by omega), Nat.add_sub_cancel_left]
  simp [hi]

@[simp] theorem opcodeField_encodeI (m : Mnemonic) (rd : Reg) (n : BitVec 8) :
    opcodeField (encodeI m rd n) = m.opcode := by
  apply BitVec.eq_of_getLsbD_eq; intro i hi
  simp only [opcodeField, encodeI, BitVec.getLsbD_extractLsb', BitVec.getLsbD_or,
    getLsbD_placed _ _ (11 + i) (by omega)]
  rw [BitVec.getLsbD_of_ge (regBits rd) _ (by omega), BitVec.getLsbD_of_ge n _ (by omega), Nat.add_sub_cancel_left]
  simp [hi]

@[simp] theorem opcodeField_encodeIX (m : Mnemonic) (n : BitVec 11) : opcodeField (encodeIX m n) = m.opcode := by
  apply BitVec.eq_of_getLsbD_eq; intro i hi
  simp only [opcodeField, encodeIX, BitVec.getLsbD_extractLsb', BitVec.getLsbD_or,
    getLsbD_placed _ _ (11 + i) (by omega)]
  rw [BitVec.getLsbD_of_ge n _ (by omega), Nat.add_sub_cancel_left]
  simp [hi]

end Sys2Proof
end

