-- ==== Sys2Proof/Laws/PerInstr.lean ====
section
/-! SUPPORT. What holds of each instruction as a term, one lemma per constructor.
`Canonical`: the word the encoder gives has the kind's opcode on top and 0 in every bit the kind ignores
(30_encoding.md R55, R59). `Legal`: every instruction passes the check of its own assembler line (R62). -/

namespace Sys2Proof.Laws

open Sys2Proof

/-! ## Fields lie inside the used bits -/

theorem or_outside {u v mask : Word} (hu : u &&& ~~~mask = 0) (hv : v &&& ~~~mask = 0) :
    (u ||| v) &&& ~~~mask = 0 := by
  apply BitVec.eq_of_getLsbD_eq; intro k hk
  have hu := congrArg (·.getLsbD k) hu
  have hv := congrArg (·.getLsbD k) hv
  simp [hk] at hu hv ⊢
  tauto

theorem placed_outside {n : Nat} (v : BitVec n) (lo : Nat) {mask : Word}
    (h : ∀ k, k < n → mask.getLsbD (lo + k) = true) : placed v lo &&& ~~~mask = 0 := by
  apply BitVec.eq_of_getLsbD_eq; intro k hk
  simp only [BitVec.getLsbD_and, getLsbD_placed _ _ _ hk, BitVec.getLsbD_not]
  by_cases hlo : lo ≤ k
  · by_cases hn : k - lo < n
    · have := h _ hn
      rw [Nat.add_sub_cancel' hlo] at this
      simp [this]
    · simp [BitVec.getLsbD_of_ge v (k - lo) (by omega)]
  · simp [hlo]

@[simp] theorem placed_regBits_zero (lo : Nat) : placed (regBits 0) lo = 0 := by
  simp [placed, regBits]

theorem encodeR_outside (m : Mnemonic) (rd rs rt : Reg) {mask : Word}
    (hop : ∀ k, k < 5 → mask.getLsbD (11 + k) = true)
    (hd : rd = 0 ∨ ∀ k, k < 3 → mask.getLsbD (8 + k) = true)
    (hs : rs = 0 ∨ ∀ k, k < 3 → mask.getLsbD (5 + k) = true)
    (ht : rt = 0 ∨ ∀ k, k < 3 → mask.getLsbD (2 + k) = true) : encodeR m rd rs rt &&& ~~~mask = 0 := by
  have reg : ∀ (r : Reg) (lo : Nat), (r = 0 ∨ ∀ k, k < 3 → mask.getLsbD (lo + k) = true) →
      placed (regBits r) lo &&& ~~~mask = 0 := by
    rintro r lo (rfl | h)
    · simp
    · exact placed_outside _ _ h
  exact or_outside (or_outside (or_outside (placed_outside _ _ hop) (reg _ _ hd)) (reg _ _ hs)) (reg _ _ ht)

/-! ## The canonical word -/

/-- The encoder's word has its kind's opcode, and 0 in the bits its kind ignores. -/
def Canonical.Statement (i : Instr) : Prop :=
  opcodeField (encodeWord i) = i.mnemonic.opcode ∧ encodeWord i &&& ~~~i.mnemonic.usedMask = 0

theorem canonicalR (m : Mnemonic) (rd rs rt : Reg) (h : m.usedMask = 0xFFFC) :
    opcodeField (encodeR m rd rs rt) = m.opcode ∧ encodeR m rd rs rt &&& ~~~m.usedMask = 0 :=
  ⟨by simp, by
    rw [h]; exact encodeR_outside _ _ _ _ (by decide) (.inr (by decide)) (.inr (by decide)) (.inr (by decide))⟩

theorem canonicalI (m : Mnemonic) (rd : Reg) (n : BitVec 8) (h : m.usedMask = 0xFFFF) :
    opcodeField (encodeI m rd n) = m.opcode ∧ encodeI m rd n &&& ~~~m.usedMask = 0 :=
  ⟨by simp, by rw [h]; simp⟩

namespace Canonical

theorem add (rd rs rt : Reg) : Statement (.add rd rs rt) := canonicalR _ _ _ _ rfl
theorem sub (rd rs rt : Reg) : Statement (.sub rd rs rt) := canonicalR _ _ _ _ rfl
theorem and (rd rs rt : Reg) : Statement (.and rd rs rt) := canonicalR _ _ _ _ rfl
theorem nor (rd rs rt : Reg) : Statement (.nor rd rs rt) := canonicalR _ _ _ _ rfl
theorem div (rd rs rt : Reg) : Statement (.div rd rs rt) := canonicalR _ _ _ _ rfl
theorem mul (rd rs rt : Reg) : Statement (.mul rd rs rt) := canonicalR _ _ _ _ rfl
theorem mod (rd rs rt : Reg) : Statement (.mod rd rs rt) := canonicalR _ _ _ _ rfl
theorem exp (rd rs rt : Reg) : Statement (.exp rd rs rt) := canonicalR _ _ _ _ rfl

theorem lw (rd rs : Reg) : Statement (.lw rd rs) :=
  ⟨opcodeField_encodeR _ _ _ _,
   encodeR_outside (mask := Mnemonic.usedMask .lw) _ _ _ _
     (by decide) (.inr (by decide)) (.inr (by decide)) (.inl rfl)⟩

theorem sw (rs rt : Reg) : Statement (.sw rs rt) :=
  ⟨opcodeField_encodeR _ _ _ _,
   encodeR_outside (mask := Mnemonic.usedMask .sw) _ _ _ _
     (by decide) (.inl rfl) (.inr (by decide)) (.inr (by decide))⟩

theorem jr (rs : Reg) : Statement (.jr rs) :=
  ⟨opcodeField_encodeR _ _ _ _,
   encodeR_outside (mask := Mnemonic.usedMask .jr) _ _ _ _
     (by decide) (.inl rfl) (.inr (by decide)) (.inl rfl)⟩

theorem halt : Statement .halt :=
  ⟨opcodeField_encodeR _ _ _ _,
   encodeR_outside (mask := Mnemonic.usedMask .halt) _ _ _ _
     (by decide) (.inl rfl) (.inl rfl) (.inl rfl)⟩

theorem put (rs : Reg) : Statement (.put rs) :=
  ⟨opcodeField_encodeR _ _ _ _,
   encodeR_outside (mask := Mnemonic.usedMask .put) _ _ _ _
     (by decide) (.inl rfl) (.inr (by decide)) (.inl rfl)⟩

theorem liz (rd : Reg) (imm8 : BitVec 8) : Statement (.liz rd imm8) := canonicalI _ _ _ rfl
theorem lis (rd : Reg) (imm8 : BitVec 8) : Statement (.lis rd imm8) := canonicalI _ _ _ rfl
theorem lui (rd : Reg) (imm8 : BitVec 8) : Statement (.lui rd imm8) := canonicalI _ _ _ rfl

theorem jalr (rd rs : Reg) : Statement (.jalr rd rs) :=
  ⟨opcodeField_encodeR _ _ _ _,
   encodeR_outside (mask := Mnemonic.usedMask .jalr) _ _ _ _
     (by decide) (.inr (by decide)) (.inr (by decide)) (.inl rfl)⟩

theorem bp (rd : Reg) (imm8 : BitVec 8) : Statement (.bp rd imm8) := canonicalI _ _ _ rfl
theorem bn (rd : Reg) (imm8 : BitVec 8) : Statement (.bn rd imm8) := canonicalI _ _ _ rfl
theorem bx (rd : Reg) (imm8 : BitVec 8) : Statement (.bx rd imm8) := canonicalI _ _ _ rfl
theorem bz (rd : Reg) (imm8 : BitVec 8) : Statement (.bz rd imm8) := canonicalI _ _ _ rfl

theorem j (imm11 : BitVec 11) : Statement (.j imm11) :=
  ⟨opcodeField_encodeIX _ _, by simp [Instr.mnemonic, Mnemonic.usedMask]⟩

end Canonical

/-! ## Assembler lines -/

/-- The instruction's own line passes the check and gives it back. -/
def Legal.Statement (i : Instr) : Prop := i.WellFormed

@[simp] theorem asmReg_val (r : Reg) : asmReg r.val = .ok r := by simp [asmReg]

@[simp] theorem asmImm_toNat {n : Nat} (v : BitVec n) : asmImm n v.toNat = .ok v := by
  simp [asmImm, v.isLt]

@[simp] theorem asmThree_val (f : Reg → Reg → Reg → Instr) (a b c : Reg) : asmThree f a b c = .ok (f a b c) := by
  simp [asmThree, bind, Except.bind, pure, Except.pure]

@[simp] theorem asmTwo_val (f : Reg → Reg → Instr) (a b : Reg) : asmTwo f a b = .ok (f a b) := by
  simp [asmTwo, bind, Except.bind, pure, Except.pure]

@[simp] theorem asmRegImm_val (f : Reg → BitVec 8 → Instr) (a : Reg) (v : BitVec 8) :
    asmRegImm f a v.toNat = .ok (f a v) := by
  simp [asmRegImm, bind, Except.bind, pure, Except.pure]

namespace Legal

theorem add (rd rs rt : Reg) : Statement (.add rd rs rt) := asmThree_val _ _ _ _
theorem sub (rd rs rt : Reg) : Statement (.sub rd rs rt) := asmThree_val _ _ _ _
theorem and (rd rs rt : Reg) : Statement (.and rd rs rt) := asmThree_val _ _ _ _
theorem nor (rd rs rt : Reg) : Statement (.nor rd rs rt) := asmThree_val _ _ _ _
theorem div (rd rs rt : Reg) : Statement (.div rd rs rt) := asmThree_val _ _ _ _
theorem mul (rd rs rt : Reg) : Statement (.mul rd rs rt) := asmThree_val _ _ _ _
theorem mod (rd rs rt : Reg) : Statement (.mod rd rs rt) := asmThree_val _ _ _ _
theorem exp (rd rs rt : Reg) : Statement (.exp rd rs rt) := asmThree_val _ _ _ _
theorem lw (rd rs : Reg) : Statement (.lw rd rs) := asmTwo_val _ _ _
theorem sw (rs rt : Reg) : Statement (.sw rs rt) := asmTwo_val _ _ _
theorem jr (rs : Reg) : Statement (.jr rs) := congrArg (Except.map Instr.jr) (asmReg_val rs)
theorem halt : Statement .halt := rfl
theorem put (rs : Reg) : Statement (.put rs) := congrArg (Except.map Instr.put) (asmReg_val rs)
theorem liz (rd : Reg) (imm8 : BitVec 8) : Statement (.liz rd imm8) := asmRegImm_val _ _ _
theorem lis (rd : Reg) (imm8 : BitVec 8) : Statement (.lis rd imm8) := asmRegImm_val _ _ _
theorem lui (rd : Reg) (imm8 : BitVec 8) : Statement (.lui rd imm8) := asmRegImm_val _ _ _
theorem jalr (rd rs : Reg) : Statement (.jalr rd rs) := asmTwo_val _ _ _
theorem bp (rd : Reg) (imm8 : BitVec 8) : Statement (.bp rd imm8) := asmRegImm_val _ _ _
theorem bn (rd : Reg) (imm8 : BitVec 8) : Statement (.bn rd imm8) := asmRegImm_val _ _ _
theorem bx (rd : Reg) (imm8 : BitVec 8) : Statement (.bx rd imm8) := asmRegImm_val _ _ _
theorem bz (rd : Reg) (imm8 : BitVec 8) : Statement (.bz rd imm8) := asmRegImm_val _ _ _
theorem j (imm11 : BitVec 11) : Statement (.j imm11) := congrArg (Except.map Instr.j) (asmImm_toNat imm11)

end Legal

end Sys2Proof.Laws
end

