-- ==== Sys2Proof/Machine/Assembly.lean ====
section
/-! DEFINITION. Reading assembler text (30_encoding.md R62), as lists of characters: `ADD r2,r0,r1` to an instruction,
`LIZ r0,5 ; HALT` to several, and their words as the bytes of a program image. -/

namespace Sys2Proof.Machine

/-- Why a text is refused. What R62 leaves open (blanks, letter case, errors) is the model's choice (log 7). -/
inductive TextError where
  /-- The first word is no mnemonic of the 22. -/
  | badMnemonic (word : List Char)
  /-- An operand is neither a register `r<n>` nor a number. -/
  | badOperand (text : List Char)
  /-- The line has a mnemonic and operands but is ill formed (WellFormed.lean). -/
  | badLine (e : AsmError)
deriving DecidableEq, Repr

/-- The pieces of a text between the separators. -/
def pieces (sep : Char) : List Char → List (List Char)
  | [] => [[]]
  | c :: cs =>
    match pieces sep cs with
    | [] => [[c]]
    | p :: ps => if c = sep then [] :: p :: ps else (c :: p) :: ps

/-- A text without the blanks before and after it. -/
def trimmed (cs : List Char) : List Char :=
  ((cs.dropWhile (fun c => c == ' ')).reverse.dropWhile (fun c => c == ' ')).reverse

/-- The value of a digit, if it is one below the base. -/
def digit (base : Nat) (c : Char) : Option Nat :=
  let v :=
    if '0' ≤ c ∧ c ≤ '9' then c.toNat - '0'.toNat
    else if 'a' ≤ c ∧ c ≤ 'f' then c.toNat - 'a'.toNat + 10
    else if 'A' ≤ c ∧ c ≤ 'F' then c.toNat - 'A'.toNat + 10
    else base
  if v < base then some v else none

/-- The number that digits continue. -/
def numberFrom (base : Nat) : Nat → List Char → Option Nat
  | n, [] => some n
  | n, c :: cs =>
    match digit base c with
    | some d => numberFrom base (base * n + d) cs
    | none => none

/-- The number of one digit or more. -/
def number (base : Nat) : List Char → Option Nat
  | [] => none
  | c :: cs => numberFrom base 0 (c :: cs)

/-- An operand: "registers written `r0`..`r7`, immediates as decimal or `0x` hexadecimal numbers" (30_encoding.md
R62). -/
def readOperand : List Char → Except TextError Operand
  | 'r' :: cs =>
    match number 10 cs with
    | some n => .ok (.reg n)
    | none => .error (.badOperand ('r' :: cs))
  | '0' :: 'x' :: cs =>
    match number 16 cs with
    | some n => .ok (.imm n)
    | none => .error (.badOperand ('0' :: 'x' :: cs))
  | cs =>
    match number 10 cs with
    | some n => .ok (.imm n)
    | none => .error (.badOperand cs)

/-- "the operands separated by commas" (30_encoding.md R62). -/
def readOperands (cs : List Char) : Except TextError (List Operand) :=
  if cs = [] then .ok [] else (pieces ',' cs).mapM (fun p => readOperand (trimmed p))

/-- The kind a mnemonic names (30_encoding.md R62). -/
def mnemonicOf (cs : List Char) : Option Mnemonic := Mnemonic.all.find? (fun m => m.name.toList == cs)

/-- One instruction: "the mnemonic, then the operands" (30_encoding.md R62). -/
def readInstr (text : List Char) : Except TextError Instr :=
  let cs := trimmed text
  let word := cs.takeWhile (fun c => c != ' ')
  match mnemonicOf word with
  | none => .error (.badMnemonic word)
  | some m =>
    match readOperands (trimmed (cs.dropWhile (fun c => c != ' '))) with
    | .error e => .error e
    | .ok os =>
      match AsmLine.assemble ⟨m, os⟩ with
      | .ok i => .ok i
      | .error e => .error (.badLine e)

/-- The instructions of one line, "`;` separating instructions written on one line" (30_encoding.md R62). -/
def readLine (text : List Char) : Except TextError (List Instr) := (pieces ';' text).mapM readInstr

/-- The program image of one line: each instruction's word, ignored bits 0, high byte first (30_encoding.md R62,
20_memory.md R37). -/
def assembleText (text : List Char) : Except TextError (List Byte) :=
  (readLine text).map fun is => (is.map encode).flatten

end Sys2Proof.Machine
end

