-- ==== Sys2Proof/Tests/Slice0.lean ====
section
/-! SUPPORT. The model's own tests, each one step on a small state or one word. Every expected value is the spec's: the
vectors of 95_test_vectors.md (named L1-1, L2-A1, ...) or the example of the rule. After them, for every obligation with
hypotheses, a state and operands that meet all of them together. -/

namespace Sys2Proof.Tests

open Sys2Proof.Machine

/-- The reset registers with some of them set. -/
def regs (l : List (Reg × Word)) : Vector Word 8 := l.foldl (fun x p => x.set p.1 p.2) State.reset.x

/-- A state about to fetch the word `w` at `pc`, with some registers set. -/
def atWord (pc w : Word) (l : List (Reg × Word)) : State := placeWord { State.reset with pc := pc, x := regs l } w

/-- The same with one word in data memory. -/
def atWordWith (w : Word) (l : List (Reg × Word)) (a v : Word) : State := (atWord 0 w l).storeWord a v

/-! ## Assembler lines (30_encoding.md R62) -/

theorem test_line_wrong_operands :
    AsmLine.assemble ⟨.jr, [.reg 1, .reg 2]⟩ = .error (.wrongOperands .jr) ∧
    AsmLine.wellFormed ⟨.liz, [.imm 5, .reg 0]⟩ = false := by decide
theorem test_line_bad_register :
    AsmLine.assemble ⟨.add, [.reg 2, .reg 0, .reg 8]⟩ = .error (.badRegister 8) := by decide
theorem test_line_immediate_too_wide :
    AsmLine.assemble ⟨.liz, [.reg 0, .imm 256]⟩ = .error (.immediateTooWide 8 256) ∧
    AsmLine.assemble ⟨.j, [.imm 2048]⟩ = .error (.immediateTooWide 11 2048) := by decide
theorem test_line_well_formed : AsmLine.assemble ⟨.liz, [.reg 0, .imm 5]⟩ = .ok (.liz 0 5) := by decide
theorem test_line_text : (Instr.line (.div 0 1 2)).text = "DIV r0,r1,r2" := by decide
/-- The program of L1-1, as text and as the image of the spec. -/
theorem test_text_of_L1_1 :
    assembleText "LIZ r0,5 ; LIZ r1,3 ; ADD r2,r0,r1 ; HALT".toList =
      .ok [0x80, 0x05, 0x81, 0x03, 0x02, 0x04, 0x68, 0x00] := by decide
theorem test_text_hexadecimal : readInstr "LIS r4,0xFF".toList = .ok (.lis 4 0xFF) := by decide
theorem test_text_refused :
    readInstr "JAL r6,r7".toList = .error (.badMnemonic "JAL".toList) ∧
    readInstr "JR x6".toList = .error (.badOperand "x6".toList) ∧
    readInstr "PUT r8".toList = .error (.badLine (.badRegister 8)) := by decide

/-! ## Decoding: every constructor, by the words of the rules R66 to R92 and of L2-0 -/

theorem test_decode_alu :
    decodeWord 0x0328 = .ok (.add 3 1 2) ∧ decodeWord 0x0B28 = .ok (.sub 3 1 2) ∧
    decodeWord 0x1328 = .ok (.and 3 1 2) ∧ decodeWord 0x1B28 = .ok (.nor 3 1 2) ∧
    decodeWord 0x2328 = .ok (.div 3 1 2) ∧ decodeWord 0x2B28 = .ok (.mul 3 1 2) ∧
    decodeWord 0x3328 = .ok (.mod 3 1 2) ∧ decodeWord 0x3B28 = .ok (.exp 3 1 2) := by decide
/-- ADD r3,r1,r2 bit by bit: op 00000, rd 011, rs 001, rt 010, unused 00 (R52). -/
theorem test_decode_add_bits : decodeWord 0b0000001100101000 = .ok (.add 3 1 2) := by decide
/-- BX r2,0xFF bit by bit: op 10110, rd 010, imm8 11111111 (R53). -/
theorem test_decode_bx_bits : decodeWord 0b1011001011111111 = .ok (.bx 2 0xFF) := by decide
/-- J 0x005 bit by bit: op 11000, imm11 00000000101 (R54). -/
theorem test_decode_j_bits : decodeWord 0b1100000000000101 = .ok (.j 5) := by decide
theorem test_decode_memory :
    decodeWord 0x4340 = .ok (.lw 3 2) ∧ decodeWord 0x4844 = .ok (.sw 2 1) := by decide
theorem test_decode_immediate :
    decodeWord 0x8005 = .ok (.liz 0 5) ∧ decodeWord 0x8CFF = .ok (.lis 4 0xFF) ∧
    decodeWord 0x9112 = .ok (.lui 1 0x12) := by decide
theorem test_decode_branches :
    decodeWord 0xA003 = .ok (.bp 0 3) ∧ decodeWord 0xA910 = .ok (.bn 1 0x10) ∧
    decodeWord 0xB2FF = .ok (.bx 2 0xFF) ∧ decodeWord 0xBAFF = .ok (.bz 2 0xFF) := by decide
theorem test_decode_jumps :
    decodeWord 0x60C0 = .ok (.jr 6) ∧ decodeWord 0x9EE0 = .ok (.jalr 6 7) ∧
    decodeWord 0xC7FF = .ok (.j 0x7FF) := by decide
theorem test_decode_system : decodeWord 0x6800 = .ok .halt ∧ decodeWord 0x7060 = .ok (.put 3) := by decide
theorem test_decode_ignored_bits :
    decodeWord 0x032B = .ok (.add 3 1 2) ∧ decodeWord 0x4F5F = .ok (.sw 2 7) ∧
    decodeWord 0x6FFF = .ok .halt := by decide
theorem test_decode_unknown :
    decodeWord 0x5000 = .error (.unknownOpcode 0x0A) ∧ decodeWord 0x5800 = .error (.unknownOpcode 0x0B) ∧
    decodeWord 0x7FFF = .error (.unknownOpcode 0x0F) ∧ decodeWord 0xC800 = .error (.unknownOpcode 0x19) := by decide
theorem test_encode :
    encodeWord (.sw 2 1) = 0x4844 ∧ encodeWord (.jalr 6 7) = 0x9EE0 ∧ encodeWord (.bx 2 0xFF) = 0xB2FF ∧
    encodeWord (.j 0x7FF) = 0xC7FF ∧ encode (.liz 0 5) = [0x80, 0x05] := by decide
theorem test_decodeTableWord :
    decodeTableWord 16 0x4844 = some (.sw 2 1) ∧ decodeTableWord 16 0xFFFF = none := by decide
theorem test_withFetchWord :
    step (State.reset.withFetchWord 16 0x8005) =
      exec (.liz 0 5) (State.reset.withFetchWord 16 0x8005) := rfl

/-! ## Arithmetic and logic (L2-A) -/

/-- L2-A1 and the counting of R66. -/
theorem test_add :
    (runFor 1 (atWord 0 0x0328 [(1, 0x7FFF), (2, 1)])).reg 3 = 0x8000 ∧
    (runFor 1 (atWord 0 0x0328 [(1, 0x7FFF), (2, 1)])).pc = 2 ∧
    (runFor 1 (atWord 0 0x0328 [(1, 0x7FFF), (2, 1)])).counter .add = 1 := by decide
/-- L2-A8. -/
theorem test_add_aliased : (runFor 1 (atWord 0 0x0124 [(1, 0x4000)])).reg 1 = 0x8000 := by decide
/-- L2-A2. -/
theorem test_sub :
    (runFor 1 (atWord 0 0x0B28 [(1, 0x8000), (2, 1)])).reg 3 = 0x7FFF ∧
    (runFor 1 (atWord 0 0x0B28 [(1, 3), (2, 5)])).reg 3 = 0xFFFE := by decide
/-- L2-A3. -/
theorem test_and : (runFor 1 (atWord 0 0x1328 [(1, 0xF0F0), (2, 0x0FF0)])).reg 3 = 0x00F0 := by decide
/-- L2-A3. -/
theorem test_nor :
    (runFor 1 (atWord 0 0x1B28 [(1, 0x1234), (2, 0x1234)])).reg 3 = 0xEDCB ∧
    (runFor 1 (atWord 0 0x1B28 [(1, 0xF000), (2, 0x000F)])).reg 3 = 0x0FF0 := by decide
/-- L2-A4. -/
theorem test_div :
    (runFor 1 (atWord 0 0x2328 [(1, 0xFFF9), (2, 2)])).reg 3 = 0xFFFD ∧
    (runFor 1 (atWord 0 0x2328 [(1, 7), (2, 0xFFFE)])).reg 3 = 0xFFFD ∧
    (runFor 1 (atWord 0 0x2328 [(1, 0x8000), (2, 0xFFFF)])).reg 3 = 0x8000 := by decide
/-- L2-A9. -/
theorem test_div_by_zero :
    (runFor 1 (atWord 0 0x2228 [(1, 9)])).reason = .divideByZero ∧
    (runFor 1 (atWord 0 0x2228 [(1, 9)])).x = regs [(1, 9)] ∧
    (runFor 1 (atWord 0 0x2228 [(1, 9)])).pc = 0 ∧
    (runFor 1 (atWord 0 0x2228 [(1, 9)])).counter .div = 1 := by decide
/-- L2-A5. -/
theorem test_mul : (runFor 1 (atWord 0 0x2B28 [(1, 0x012C), (2, 0x012C)])).reg 3 = 0x5F90 := by decide
/-- L2-A8. -/
theorem test_mul_aliased :
    (runFor 1 (atWord 0 0x2CB0 [(4, 3), (5, 7)])).reg 4 = 0x0015 ∧
    (runFor 1 (atWord 0 0x2CB0 [(4, 3), (5, 7)])).reg 5 = 7 := by decide
/-- L2-A6. -/
theorem test_mod :
    (runFor 1 (atWord 0 0x3328 [(1, 0xFFF9), (2, 2)])).reg 3 = 0xFFFF ∧
    (runFor 1 (atWord 0 0x3328 [(1, 7), (2, 0xFFFE)])).reg 3 = 1 ∧
    (runFor 1 (atWord 0 0x3328 [(1, 0x8000), (2, 0xFFFF)])).reg 3 = 0 := by decide
/-- L2-A6. -/
theorem test_mod_by_zero :
    (runFor 1 (atWord 0 0x3328 [(1, 5), (3, 9)])).reason = .moduloByZero ∧
    (runFor 1 (atWord 0 0x3328 [(1, 5), (3, 9)])).reg 3 = 9 := by decide
/-- L2-A7. -/
theorem test_exp :
    (runFor 1 (atWord 0 0x3B28 [(1, 3), (2, 10)])).reg 3 = 0xE6A9 ∧
    (runFor 1 (atWord 0 0x3B28 [(1, 2), (2, 16)])).reg 3 = 0 ∧
    (runFor 1 (atWord 0 0x3B28 [])).reg 3 = 1 ∧
    (runFor 1 (atWord 0 0x3B28 [(1, 0xFFFF), (2, 0x7FFF)])).reg 3 = 0xFFFF := by decide
/-- L2-A7: the reference values, which the machine does not use. -/
theorem test_exp_reference :
    expNegReference 2 (-1) = 0 ∧ expNegReference 1 (-1) = 1 ∧ expNegReference (-1) (-1) = 0xFFFF ∧
    expNegReference (-1) (-2) = 1 ∧ expNegReference 0 (-1) = 0 := by decide

/-! ## Load and store (L2-B) -/

theorem test_lw :
    (runFor 1 (atWordWith 0x4240 [(2, 0x0020)] 0x0020 0x1234)).reg 2 = 0x1234 ∧
    (runFor 1 (atWordWith 0x4340 [(2, 0xFFFE)] 0xFFFE 0xABCD)).reg 3 = 0xABCD ∧
    (runFor 1 (atWord 0 0x4340 [(2, 0x0040), (3, 7)])).reg 3 = 0 := by decide
theorem test_lw_unaligned :
    (runFor 1 (atWord 0 0x4340 [(2, 0x0021), (3, 0x5555)])).reason = .unalignedAccess ∧
    (runFor 1 (atWord 0 0x4340 [(2, 0x0021), (3, 0x5555)])).reg 3 = 0x5555 ∧
    (runFor 1 (atWord 0 0x4340 [(2, 0x0021), (3, 0x5555)])).counter .lw = 1 := by decide
theorem test_sw :
    (runFor 1 (atWord 0 0x4844 [(2, 0x0010), (1, 0x1234)])).dmem = [(0x10, 0x12), (0x11, 0x34)] ∧
    (runFor 1 (atWord 0 0x4844 [(2, 0x8000), (1, 0xBEEF)])).dmem = [(0x8000, 0xBE), (0x8001, 0xEF)] := by decide
theorem test_sw_unaligned :
    (runFor 1 (atWord 0 0x4844 [(2, 0xFFFF), (1, 0x1234)])).reason = .unalignedAccess ∧
    (runFor 1 (atWord 0 0x4844 [(2, 0xFFFF), (1, 0x1234)])).dmem = [] ∧
    (runFor 1 (atWord 0 0x4844 [(2, 0xFFFF), (1, 0x1234)])).counter .sw = 1 := by decide

/-! ## Immediate loads (L2-C) -/

theorem test_liz : (runFor 1 (atWord 0 0x8080 [(0, 0xFFFF)])).reg 0 = 0x0080 := by decide
theorem test_lis :
    (runFor 1 (atWord 0 0x8C80 [])).reg 4 = 0xFF80 ∧ (runFor 1 (atWord 0 0x8C7F [])).reg 4 = 0x007F := by decide
theorem test_lui :
    (runFor 1 (atWord 0 0x91AB [(1, 0x1234)])).reg 1 = 0xAB34 ∧
    (runFor 1 (atWord 0 0x9100 [(1, 0xFF80)])).reg 1 = 0x0080 := by decide

/-! ## Control transfer (L2-D) -/

theorem test_bp :
    (runFor 1 (atWord 0x000A 0xA003 [(0, 5)])).pc = 0x0006 ∧ (runFor 1 (atWord 0x000A 0xA003 [])).pc = 0x000C ∧
    (runFor 1 (atWord 0x000A 0xA003 [(0, 0x8000)])).pc = 0x000C := by decide
theorem test_bn :
    (runFor 1 (atWord 0x0040 0xA910 [(1, 0x8000)])).pc = 0x0020 ∧
    (runFor 1 (atWord 0x0040 0xA910 [(1, 0x7FFF)])).pc = 0x0042 := by decide
theorem test_bx :
    (runFor 1 (atWord 0x0010 0xB2FF [])).pc = 0x0012 ∧
    (runFor 1 (atWord 0x0010 0xB2FF [(2, 0x8000)])).pc = 0x01FE := by decide
theorem test_bz :
    (runFor 1 (atWord 0x3000 0xBA00 [])).pc = 0x0000 ∧
    (runFor 1 (atWord 0xFFFE 0xBA00 [(2, 1)])).pc = 0x0000 ∧
    (runFor 1 (atWord 0x0010 0xBAFF [(2, 1)])).pc = 0x0012 := by decide
theorem test_jr :
    (runFor 1 (atWord 0x0100 0x60C0 [(6, 7)])).pc = 0x0007 ∧
    (runFor 2 (atWord 0x0100 0x60C0 [(6, 7)])).reason = .fetchMisaligned := by decide
theorem test_jr_sentinel :
    (runFor 1 (atWord 0x0100 0x60C0 [(6, 0xFFFF)])).reason = .sentinelTarget ∧
    (runFor 1 (atWord 0x0100 0x60C0 [(6, 0xFFFF)])).pc = 0x0100 ∧
    (runFor 1 (atWord 0x0100 0x60C0 [(6, 0xFFFF)])).counter .jr = 1 := by decide
theorem test_jalr :
    (runFor 1 (atWord 0x0002 0x9EC0 [(6, 0x0010)])).reg 6 = 0x0004 ∧
    (runFor 1 (atWord 0x0002 0x9EC0 [(6, 0x0010)])).pc = 0x0010 ∧
    (runFor 1 (atWord 0xFFFE 0x9EE0 [(7, 0x0020)])).reg 6 = 0x0000 := by decide
theorem test_jalr_sentinel :
    (runFor 1 (atWord 0x0002 0x9CA0 [(5, 0xFFFF)])).reg 4 = 0x0004 ∧
    (runFor 1 (atWord 0x0002 0x9CA0 [(5, 0xFFFF)])).reason = .sentinelTarget ∧
    (runFor 1 (atWord 0x0002 0x9CA0 [(5, 0xFFFF)])).pc = 0x0002 := by decide
theorem test_j :
    (runFor 1 (atWord 0x1234 0xC7FF [])).pc = 0x1FFE ∧ (runFor 1 (atWord 0x0FFE 0xC001 [])).pc = 0x0002 ∧
    (runFor 1 (atWord 0xF002 0xC400 [])).pc = 0xF800 := by decide

/-! ## HALT, PUT, unknown opcodes, fetch (L2-E, L2-F), statistics (L2-G) -/

theorem test_halt :
    (runFor 1 (atWord 0x0006 0x6FFF [])).Completed ∧ (runFor 1 (atWord 0x0006 0x6FFF [])).pc = 0x0006 ∧
    (runFor 1 (atWord 0x0006 0x6FFF [])).counter .halt = 1 := by decide
theorem test_put :
    puts (runFor 1 (atWord 0 0x7060 [(3, 0x1234)])).events = [0x1234] ∧
    (runFor 1 (atWord 0 0x7060 [(3, 0x1234)])).pc = 2 ∧
    (runFor 1 (atWord 0 0x7060 [(3, 0x1234)])).counter .put = 1 := by decide
theorem test_unknown_opcode :
    runFor 1 (atWord 0xFFFE 0xFFFF []) =
      { atWord 0xFFFE 0xFFFF [] with pc := 0, events := [.diag (.unknownOpcode 0x1F 0xFFFE)] } := by decide
theorem test_odd_fetch :
    (runFor 1 (atWord 0x0003 0x5000 [])).reason = .fetchMisaligned ∧
    (runFor 1 (atWord 0x0003 0x5000 [])).pc = 0x0003 ∧
    (runFor 1 (atWord 0x0003 0x5000 [])).instructions = 0 := by decide
theorem test_fetch_at_the_top :
    (runFor 1 (atWord 0xFFFE 0x8005 [])).reg 0 = 5 ∧ (runFor 1 (atWord 0xFFFE 0x8005 [])).pc = 0 := by decide
theorem test_no_step_when_terminated : step (State.reset.terminate .halted) = .fault .terminated := rfl
/-- L2-G: three MUL at 4 cycles, two LW, two SW. -/
theorem test_statistics :
    (((State.reset.setCounter .mul 3).setCounter .lw 2).setCounter .sw 2).instructions = 7 ∧
    State.cycles
      { ((State.reset.setCounter .mul 3).setCounter .lw 2).setCounter .sw 2 with
        lat := { Latencies.default with mul := 4 } } = 16 := by decide
/-- The start of a run refuses a negative latency (10_state.md R28), and takes 0. -/
theorem test_boot_latency :
    boot [] { div := some (-1) } = .error (.negativeLatency .div (-1)) ∧
    (boot [] { add := some 0 }).map (fun s => (s.lat.add, s.lat.sub)) = .ok (0, 1) := by decide
/-- An image of odd length leaves the low byte of its last word 0x00 (70_reset_and_hazards.md R122). -/
theorem test_boot_odd_image : (boot [0x68] {}).map State.wordAtPc = .ok 0x6800 := by decide

/-! ## Witnesses: for each obligation with hypotheses, values that meet them all -/

/-- A word of no instruction is dispatched as none. -/
theorem no_dispatch_of_error {s : State} {e : DecodeError} (h : decodeWord s.wordAtPc = .error e) (i : Instr) :
    ¬ s.Dispatches i := by
  rintro ⟨-, -, hi⟩
  rw [h] at hi
  cases hi

/-- No instruction is dispatched at an odd `pc`. -/
theorem no_dispatch_of_odd {s : State} (h : isOdd s.pc = true) (i : Instr) : ¬ s.Dispatches i := by
  rintro ⟨-, ho, -⟩
  rw [h] at ho
  cases ho

/-- A dispatched instruction is the only one. -/
theorem dispatched_eq {s : State} {i j : Instr} (hi : s.Dispatches i) (hj : s.Dispatches j) : i = j := by
  have := hi.2.2.symm.trans hj.2.2
  cases this
  rfl

theorem witness_DecodingIgnoresExactlyTheUnusedBits :
    decodeWord 0x032B = .ok (.add 3 1 2) ∧ (0x032B : Word) &&& Mnemonic.add.usedMask = encodeWord (.add 3 1 2) := by
  decide
/-- A word's own fields, and the opcodes at the ends of the clauses. -/
theorem witness_OpcodeFieldSelectsTheInstruction :
    ((0x00 : BitVec 5) = (0x032B : Word).extractLsb' 11 5 ∧ (3 : Reg) = ((0x032B : Word).extractLsb' 8 3).toFin ∧
      (1 : Reg) = ((0x032B : Word).extractLsb' 5 3).toFin ∧ (2 : Reg) = ((0x032B : Word).extractLsb' 2 3).toFin ∧
      (0x2B : BitVec 8) = (0x032B : Word).extractLsb' 0 8) ∧
    (0x18 : BitVec 5) = (0xC7FF : Word).extractLsb' 11 5 ∧ (0x19 : BitVec 5) = (0xC800 : Word).extractLsb' 11 5 ∧
    (0x1F : BitVec 5) = (0xFFFF : Word).extractLsb' 11 5 := by decide
/-- Both clauses, at the first and the last opcode of each kind. -/
theorem witness_TenOpcodesSelectNoInstruction :
    ((atWord 0 0x5000 []).run = .running ∧ isOdd (atWord 0 0x5000 []).pc = false ∧
      (atWord 0 0x5000 []).wordAtPc = 0x5000 ∧ ((0x5000 : Word).extractLsb' 11 5).toNat = 0x0A) ∧
    ((atWord 0xFFFE 0xFFFF []).run = .running ∧ isOdd (atWord 0xFFFE 0xFFFF []).pc = false ∧
      (atWord 0xFFFE 0xFFFF []).wordAtPc = 0xFFFF ∧ ((0xFFFF : Word).extractLsb' 11 5).toNat = 0x1F) ∧
    ((0x0000 : Word).extractLsb' 11 5).toNat ∉
      [0x0A, 0x0B, 0x0F, 0x19, 0x1A, 0x1B, 0x1C, 0x1D, 0x1E, 0x1F] ∧
    ((0xC7FF : Word).extractLsb' 11 5).toNat ∉
      [0x0A, 0x0B, 0x0F, 0x19, 0x1A, 0x1B, 0x1C, 0x1D, 0x1E, 0x1F] := by decide
theorem witness_StepRunsTheDecodedInstruction :
    (atWord 0xFFFE 0x8005 []).Dispatches (.liz 0 5) := by decide
theorem witness_RunningMachineAlwaysSteps : State.reset.run = .running := by decide
theorem witness_OddFetchEndsTheRun :
    ((atWord 0 0 []).setPc 0xFFFF).run = .running ∧ isOdd ((atWord 0 0 []).setPc 0xFFFF).pc = true := by decide
theorem witness_UnknownOpcodeIsReportedAndSkipped :
    (atWord 0xFFFE 0x7FFF []).run = .running ∧ isOdd (atWord 0xFFFE 0x7FFF []).pc = false ∧
    decodeWord (atWord 0xFFFE 0x7FFF []).wordAtPc = .error (.unknownOpcode 0x0F) := by decide
theorem witness_AddSubMulWriteTheWrappedResult : isOdd (atWord 0xFFFE 0x0328 [(1, 0x7FFF), (2, 1)]).pc = false := by
  decide
/-- Each clause's word, and a state. -/
theorem witness_AndNorWriteTheBitwiseResult :
    (0x132B : Word) &&& 0xF800 = 0x1000 ∧ (0x1FFF : Word) &&& 0xF800 = 0x1800 ∧
    isOdd (atWord 0 0x1328 []).pc = false := by decide
/-- With a negative dividend and divisor, and at the corner -32768 / -1. -/
theorem witness_DivModWriteQuotientAndRemainder :
    (isOdd (atWord 0 0x2328 [(1, 0xFFF9), (2, 0xFFFE)]).pc = false ∧
      (atWord 0 0x2328 [(1, 0xFFF9), (2, 0xFFFE)]).reg 2 ≠ 0) ∧
    isOdd (atWord 0 0x2328 [(1, 0x8000), (2, 0xFFFF)]).pc = false ∧
      (atWord 0 0x2328 [(1, 0x8000), (2, 0xFFFF)]).reg 2 ≠ 0 := by decide
/-- At both ends of the exponent's range. -/
theorem witness_ExpWritesTheTruncatedPower :
    (isOdd State.reset.pc = false ∧ 0 ≤ (State.reset.reg 2).toInt) ∧
    isOdd (atWord 0 0x3B28 [(1, 0xFFFF), (2, 0x7FFF)]).pc = false ∧
      0 ≤ ((atWord 0 0x3B28 [(1, 0xFFFF), (2, 0x7FFF)]).reg 2).toInt := by decide
theorem witness_ExpOfNegativeExponentWritesTheFreeValue :
    isOdd (atWord 0 0x3B28 [(1, 2), (2, 0xFFFF)]).pc = false ∧
    ((atWord 0 0x3B28 [(1, 2), (2, 0xFFFF)]).reg 2).toInt < 0 := by decide
theorem witness_ReferenceExpNegRoundsTheRationalPower : (-1 : Int) < 0 := by decide
theorem witness_ImmediateLoadsWriteTheirValue :
    (0x8005 : Word) &&& 0xF800 = 0x8000 ∧ (0x8CFF : Word) &&& 0xF800 = 0x8800 ∧
    (0x97FF : Word) &&& 0xF800 = 0x9000 ∧ isOdd (atWord 0 0x8CFF []).pc = false := by decide
theorem witness_EveryRegisterTakesEveryValue : isOdd (State.reset.setPc 0xFFFE).pc = false := by decide
/-- At the top word of data memory. -/
theorem witness_LwLoadsTheBigEndianWord :
    isOdd (atWordWith 0x4340 [(2, 0xFFFE)] 0xFFFE 0xABCD).pc = false ∧
    isOdd ((atWordWith 0x4340 [(2, 0xFFFE)] 0xFFFE 0xABCD).reg 2) = false := by decide
theorem witness_SwStoresTheTwoBytesAndNoOther :
    isOdd (atWord 0 0x4844 [(2, 0xFFFE), (1, 0x1234)]).pc = false ∧
    isOdd (dataAddress (atWord 0 0x4844 [(2, 0xFFFE), (1, 0x1234)]) 2) = false := by decide
/-- Both clauses at the top of the address range, for LW and for SW. -/
theorem witness_DataAccessRequiresAnEvenAddress :
    ((∃ rd, Instr.lw 3 2 = .lw rd 2) ∧ isOdd ((atWord 0 0x4340 [(2, 0xFFFF)]).reg 2) = true) ∧
    ((∃ rt, Instr.sw 2 1 = .sw 2 rt) ∧ isOdd ((atWord 0 0x4844 [(2, 0xFFFE)]).reg 2) = false ∧
      (atWord 0 0x4844 [(2, 0xFFFE)]).reason ≠ .unalignedAccess) :=
  ⟨⟨⟨3, rfl⟩, by decide⟩, ⟨1, rfl⟩, by decide⟩
/-- An instruction that is neither SW nor LW completes; and a step dispatches none. -/
theorem witness_DataMemoryIsOnlyForLwAndSw :
    ((∃ t, exec (.put 3) (atWord 0 0x7060 []) = .next t) ∧ (∀ rs rt, Instr.put 3 ≠ .sw rs rt) ∧
      ∀ rd rs, Instr.put 3 ≠ .lw rd rs) ∧
    ((∃ t, step (atWord 0 0x5000 []) = .next t) ∧ ∀ i, ¬ (atWord 0 0x5000 []).Dispatches i) :=
  ⟨⟨⟨_, rfl⟩, fun _ _ => Instr.noConfusion, fun _ _ => Instr.noConfusion⟩, ⟨_, rfl⟩,
    no_dispatch_of_error (e := .unknownOpcode 0x0A) (by decide)⟩

/-- A program of three words: SW r2,r1, then SW r3,r1 to another address, then LW r5,r2. -/
def storeStoreLoad : State :=
  { State.reset with
    x := regs [(1, 0xFEDC), (2, 0xFFFE), (3, 0x0030)]
    imem := Memory.ofBytes 0 [0x48, 0x44, 0x48, 0x64, 0x45, 0x40] }

/-- The first clause: one store in between, to another address. -/
theorem witness_LoadReturnsTheLatestStore :
    storeStoreLoad.Dispatches (.sw 2 1) ∧ isOdd (storeStoreLoad.reg 2) = false ∧
    (∀ k, 0 < k → k < 1 + 1 → ∀ p q, (runFor k storeStoreLoad).Dispatches (.sw p q) →
      (runFor k storeStoreLoad).reg p ≠ storeStoreLoad.reg 2) ∧
    (runFor (1 + 1) storeStoreLoad).Dispatches (.lw 5 2) ∧
    (runFor (1 + 1) storeStoreLoad).reg 2 = storeStoreLoad.reg 2 := by
  refine ⟨by decide, by decide, ?_, by decide, by decide⟩
  intro k h0 h1 p q h
  obtain rfl : k = 1 := by omega
  cases dispatched_eq (by decide : (runFor 1 storeStoreLoad).Dispatches (.sw 3 1)) h
  decide

/-- The run of LIZ r2,0x40 and LW r5,r2 from reset. -/
def loadOnly : State := { State.reset with imem := Memory.ofBytes 0 [0x82, 0x40, 0x45, 0x40] }

/-- The second clause: a load with no store before it. -/
theorem witness_LoadReturnsTheLatestStore_reset :
    boot [0x82, 0x40, 0x45, 0x40] {} = .ok loadOnly ∧ isOdd ((runFor 1 loadOnly).reg 2) = false ∧
    (∀ k, k < 1 → ∀ p q, (runFor k loadOnly).Dispatches (.sw p q) →
      (runFor k loadOnly).reg p ≠ (runFor 1 loadOnly).reg 2) ∧
    (runFor 1 loadOnly).Dispatches (.lw 5 2) := by
  refine ⟨by decide, by decide, ?_, by decide⟩
  intro k h1 p q h
  obtain rfl : k = 0 := by omega
  cases dispatched_eq (by decide : (runFor 0 loadOnly).Dispatches (.liz 2 0x40)) h

theorem witness_BranchesGoToTheAbsoluteTarget :
    (0xA003 : Word) &&& 0xF800 = 0xA000 ∧ (0xA910 : Word) &&& 0xF800 = 0xA800 ∧
    (0xB2FF : Word) &&& 0xF800 = 0xB000 ∧ (0xBFFF : Word) &&& 0xF800 = 0xB800 ∧
    isOdd (atWord 0xFFFE 0xBA00 [(2, 1)]).pc = false := by decide
theorem witness_PageJumpKeepsThePage : (0xC7FF : Word) &&& 0xF800 = 0xC000 := by decide
/-- The largest target but the sentinel. -/
theorem witness_RegisterJumpsGoToTheOldValue : (atWord 0 0x60C0 [(6, 0xFFFE)]).reg 6 ≠ 0xFFFF := by decide
theorem witness_JumpToTheSentinelEndsTheRun : (atWord 0 0x60C0 [(6, 0xFFFF)]).reg 6 = 0xFFFF := by decide
/-- Both clauses, at the top word of program memory. -/
theorem witness_OtherInstructionsAdvanceByTwo :
    (isOdd (atWord 0xFFFE 0x8005 []).pc = false ∧ transfersControl (.liz 0 5) = false ∧
      (atWord 0xFFFE 0x8005 []).endsWith (.liz 0 5) = none) ∧
    ((atWord 0xFFFE 0xFFFF []).run = .running ∧ isOdd (atWord 0xFFFE 0xFFFF []).pc = false ∧
      decodeWord (atWord 0xFFFE 0xFFFF []).wordAtPc = .error (.unknownOpcode 0x1F)) := by decide
theorem witness_OnlyRegisterJumpsMakeThePcOdd :
    step (atWord 0 0x60C0 [(6, 7)]) = .next (runFor 1 (atWord 0 0x60C0 [(6, 7)])) ∧
    isOdd (atWord 0 0x60C0 [(6, 7)]).pc = false ∧ isOdd (runFor 1 (atWord 0 0x60C0 [(6, 7)])).pc = true :=
  ⟨rfl, by decide, by decide⟩
theorem witness_PutOutputsTheRegister : isOdd (atWord 0 0x7060 [(3, 0x8000)]).pc = false := by decide
/-- Each of the four instructions with such a condition. -/
theorem witness_FatalConditionLeavesRegistersAndMemory :
    State.reset.endsWith (.div 0 1 2) = some .divideByZero ∧ State.reset.endsWith (.mod 0 1 2) = some .moduloByZero ∧
    (atWord 0 0x4340 [(2, 0xFFFF)]).endsWith (.lw 3 2) = some .unalignedAccess ∧
    (atWord 0 0x4844 [(2, 0x0001)]).endsWith (.sw 2 1) = some .unalignedAccess ∧
    Reason.divideByZero ≠ .halted ∧ Reason.divideByZero ≠ .sentinelTarget ∧
    Reason.moduloByZero ≠ .halted ∧ Reason.moduloByZero ≠ .sentinelTarget ∧
    Reason.unalignedAccess ≠ .halted ∧ Reason.unalignedAccess ≠ .sentinelTarget := by decide
/-- Both sides: an odd fetch, a HALT, a jump to the sentinel; and a step that ends nothing. -/
theorem witness_RunEndsExactlyOnHaltOrFatalCondition :
    (∃ t, step ((atWord 0 0 []).setPc 0xFFFF) = .next t ∧ t.run = .terminated ∧ t.reason = .fetchMisaligned) ∧
    (∃ t, step (atWord 0 0x6800 []) = .next t ∧ t.run = .terminated ∧ t.reason = .halted) ∧
    (∃ t, step (atWord 0 0x60C0 [(6, 0xFFFF)]) = .next t ∧ t.run = .terminated ∧ t.reason = .sentinelTarget) ∧
    ∃ t, step (atWord 0 0x60C0 [(6, 0xFFFE)]) = .next t ∧ t.run = .running :=
  ⟨⟨_, rfl, by decide, by decide⟩, ⟨_, rfl, by decide, by decide⟩, ⟨_, rfl, by decide, by decide⟩,
    ⟨_, rfl, by decide⟩⟩
theorem witness_EndOfRunKeepsThePc :
    ∃ t, step (atWord 0x0006 0x6800 []) = .next t ∧ t.run = .terminated := ⟨_, rfl, by decide⟩
theorem witness_TerminatedStateIsFinal :
    (runFor 1 (atWord 0x0006 0x6800 [])).run = .terminated ∧ 1 ≤ 3 := by decide
/-- Each clause: another register than the written and the read ones, a fatal condition, a step with no instruction. -/
theorem witness_RegistersReadAndWrittenAreTheNamedOnes :
    ((∃ t, exec (.div 7 1 2) State.reset = .next t) ∧ (Instr.div 7 1 2).writtenReg ≠ some 6 ∧
      State.reset.endsWith (.div 7 1 2) = some .divideByZero ∧ Reason.divideByZero ≠ .sentinelTarget ∧
      (7 : Reg) ∉ (Instr.div 7 1 2).readRegs) ∧
    ((∃ t, step (atWord 0 0x5000 []) = .next t) ∧ ∀ i, ¬ (atWord 0 0x5000 []).Dispatches i) :=
  ⟨⟨⟨_, rfl⟩, by decide⟩, ⟨_, rfl⟩, no_dispatch_of_error (e := .unknownOpcode 0x0A) (by decide)⟩
theorem witness_OnlyTheOwnCounterChanges :
    (∃ t, exec (.add 0 0 0) State.reset = .next t) ∧ (∃ t, exec .halt State.reset = .next t) ∧
    Mnemonic.put ≠ (Instr.add 0 0 0).mnemonic := ⟨⟨_, rfl⟩, ⟨_, rfl⟩, by decide⟩
theorem witness_EventsAreAppendedAndNeverReadBack :
    ∃ t, step (atWord 0 0x7060 [(3, 0x1234)]) = .next t ∧ .put 0x1234 ∈ t.events := ⟨_, rfl, by decide⟩
theorem witness_CountersAndLatenciesNeverSteer : ∃ t, step (atWord 0 0x0328 []) = .next t := ⟨_, rfl⟩
theorem witness_EveryStartHasTheInvariant : boot [0x82, 0x40, 0x45, 0x40] {} = .ok loadOnly := by decide

/-- A state after a PUT, with a value in both memories. -/
def afterPut : State := runFor 1 (atWordWith 0x7060 [(3, 0x1234)] 0xFFFE 0x0102)

/-- A state that is not the reset state has the invariant. -/
theorem afterPut_inv : afterPut.Inv where
  imem := by decide
  dmem := by decide
  reason := by decide
  halt := by decide
  traced k := by cases k <;> decide
  output := by decide

theorem witness_EveryStepKeepsTheInvariant : afterPut.Inv ∧ ∃ t, step afterPut = .next t := ⟨afterPut_inv, _, rfl⟩
theorem witness_InstructionTotalIsTheTraceLength : afterPut.Inv ∧ afterPut.instructions = 1 :=
  ⟨afterPut_inv, by decide⟩
/-- Both clauses: a dispatched instruction, and a step with none. -/
theorem witness_StepCostsTheInstructionsLatency :
    ((∃ t, step (atWord 0 0x2B28 []) = .next t) ∧ (atWord 0 0x2B28 []).counter .halt = 0 ∧
      (atWord 0 0x2B28 []).Dispatches (.mul 3 1 2)) ∧
    ((∃ t, step ((atWord 0 0 []).setPc 1) = .next t) ∧ ((atWord 0 0 []).setPc 1).counter .halt = 0 ∧
      ∀ i, ¬ ((atWord 0 0 []).setPc 1).Dispatches i) :=
  ⟨⟨⟨_, rfl⟩, by decide, by decide⟩, ⟨_, rfl⟩, by decide, no_dispatch_of_odd (by decide)⟩
theorem witness_CountersNeverDecrease : afterPut.Inv ∧ (runFor 3 afterPut).counter .put = 1 :=
  ⟨afterPut_inv, by decide⟩
/-- A run that starts, with the latency 0 at the edge of what is accepted, and one that is refused. -/
theorem witness_BootPlacesTheImageAndTheLatencies :
    (∃ s, boot [0x68, 0x00] { add := some 0 } = .ok s) ∧
    boot [] { exp := some (-1) } = .error (.negativeLatency .exp (-1)) := ⟨⟨_, rfl⟩, by decide⟩

/-- The output record of the image HALT (L2-G, last row). -/
def haltRecord : OutputRecord :=
  { regs := Vector.replicate 8 0, count := (Vector.replicate 22 0).set 20 1, instructions := 1, cycles := 1 }

theorem witness_RunHasOneOutputRecord :
    recordOfRun 1 [0x68, 0x00] {} = .ok (some haltRecord) ∧ recordOfRun 3 [0x68, 0x00] {} = .ok (some haltRecord) ∧
    ∃ s, boot [0x68, 0x00] {} = .ok s ∧ (runFor 1 s).run = .terminated :=
  ⟨by decide, by decide, _, rfl, by decide⟩
theorem witness_LatenciesChangeOnlyTheCycleTotal :
    recordOfRun 1 [0x68, 0x00] {} = .ok (some haltRecord) ∧ ∃ s, boot [0x68, 0x00] { mul := some 4 } = .ok s :=
  ⟨by decide, _, rfl⟩

end Sys2Proof.Tests
end

/-! # What an instruction reads and writes (10_state.md R17, R18, R31)

A handler makes one change beside its accounting, and that change and its outcome depend on `pc`, on the registers
named as read and, for LW, on data memory: `exec_acts`. The statements about registers and data memory follow from it
by a case split on the change. -/

namespace Sys2Proof.Machine

/-! ## The effect of an instruction -/

/-- What a handler changes beside the accounting of its instruction. -/
inductive Effect where
  | nothing
  | write (rd : Reg) (v : Word)
  | store (a v : Word)
  | output (v : Word)

/-- The state with an effect done. -/
def State.apply (s : State) : Effect → State
  | .nothing => s
  | .write rd v => s.setReg rd v
  | .store a v => s.storeWord a v
  | .output v => s.emit (.put v)

/-- The state with an instruction traced and counted: one up, and HALT's counter set to 1 (10_state.md R27,
44_system.md R91). -/
def State.accounted (s : State) (i : Instr) : State :=
  (s.dispatched i.mnemonic).setCounter i.mnemonic (if i = .halt then 1 else s.counter i.mnemonic + 1)

/-- The effect is one that `i` may have when it ends the run for the reason `r`, if any: it writes the register named
for it, unless it is fatal before it completes (a jump to the sentinel completes, 45_fetch_execute.md R100), and only
SW stores. -/
def Effect.Fits (i : Instr) (r : Option Reason) : Effect → Prop
  | .nothing => i.writtenReg = none ∨ ¬(r = none ∨ r = some .sentinelTarget)
  | .write rd _ => i.writtenReg = some rd ∧ (r = none ∨ r = some .sentinelTarget)
  | .store _ _ => ∃ rs rt, i = .sw rs rt
  | .output _ => i.writtenReg = none

/-- `s'` holds the same as `s` in everything that `i` reads. -/
structure SameReads (i : Instr) (s s' : State) : Prop where
  pc : s'.pc = s.pc
  reg : ∀ r ∈ i.readRegs, s'.reg r = s.reg r
  dmem : (∃ rd rs, i = .lw rd rs) → s'.dmem = s.dmem

theorem SameReads.reg_one {i : Instr} {s s' : State} {rs : Reg} (h : SameReads i s s') (hi : i.readRegs = [rs]) :
    s'.reg rs = s.reg rs :=
  h.reg rs (by simp [hi])

theorem SameReads.reg_two {i : Instr} {s s' : State} {rs rt : Reg} (h : SameReads i s s')
    (hi : i.readRegs = [rs, rt]) : s'.reg rs = s.reg rs ∧ s'.reg rt = s.reg rt :=
  ⟨h.reg rs (by simp [hi]), h.reg rt (by simp [hi])⟩

/-- At `s`, and at every state that looks the same to it, the instruction `i` has the effect `e`, which is one of its
own, and the outcome `o`. -/
def Acts (i : Instr) (s : State) (e : Effect) (o : HandlerOutcome) : Prop :=
  e.Fits i (s.endsWith i) ∧ ∀ s', SameReads i s s' → exec i s' = .next (commit ((s'.accounted i).apply e) o)

theorem isZeroDivisor_iff (v : Word) : isZeroDivisor v = true ↔ v = 0 :=
  decide_eq_true_iff.trans (BitVec.toInt_inj (y := 0))

variable {i : Instr} {s : State}

theorem accounted_of_ne_halt (s : State) (h : i ≠ .halt) : s.accounted i = s.counted i.mnemonic := by
  simp [State.accounted, State.counted, h]

/-- A handler that writes its register and goes on in sequence. -/
theorem acts_of_writeAndContinue {rd : Reg} {v : Word} (hw : i.writtenReg = some rd) (he : s.endsWith i = none)
    (h : ∀ s', SameReads i s s' → exec i s' = writeAndContinue i.mnemonic rd v s') :
    Acts i s (.write rd v) (.continueAt s.nextPc) := by
  have hi : i ≠ .halt := by rintro rfl; cases hw
  refine ⟨⟨hw, .inl he⟩, fun s' hs => ?_⟩
  rw [h s' hs, accounted_of_ne_halt s' hi, State.nextPc, ← hs.pc]
  rfl

/-- A handler that does no more than count. -/
theorem acts_of_counted {o : HandlerOutcome} (hi : i ≠ .halt) (hf : Effect.nothing.Fits i (s.endsWith i))
    (h : ∀ s', SameReads i s s' → exec i s' = complete (s'.counted i.mnemonic) o) : Acts i s .nothing o := by
  refine ⟨hf, fun s' hs => ?_⟩
  rw [h s' hs, accounted_of_ne_halt s' hi]
  rfl

/-- Every instruction has an effect and an outcome that what it reads determines. -/
theorem exec_acts (i : Instr) (s : State) : ∃ e o, Acts i s e o := by
  cases i with
  | add rd rs rt | sub rd rs rt | and rd rs rt | nor rd rs rt | mul rd rs rt | exp rd rs rt =>
    exact ⟨_, _, acts_of_writeAndContinue rfl rfl fun s' h => by
      simp only [exec, execAdd, execSub, execAnd, execNor, execMul, execExp, h.reg_two rfl]
      rfl⟩
  | liz rd imm8 | lis rd imm8 => exact ⟨_, _, acts_of_writeAndContinue rfl rfl fun _ _ => rfl⟩
  | lui rd imm8 =>
    exact ⟨_, _, acts_of_writeAndContinue rfl rfl fun s' h => by
      rw [exec, execLui, h.reg_one rfl]
      rfl⟩
  | div rd rs rt | mod rd rs rt =>
    by_cases hz : s.reg rt = 0
    · exact ⟨_, _, acts_of_counted nofun (.inr (by simp [State.endsWith, hz])) fun s' h => by
        simp only [exec, execDiv, execMod, h.reg_two rfl, (isZeroDivisor_iff _).mpr hz, if_true]
        rfl⟩
    · exact ⟨_, _, acts_of_writeAndContinue rfl (if_neg hz) fun s' h => by
        simp only [exec, execDiv, execMod, h.reg_two rfl, mt (isZeroDivisor_iff _).mp hz]
        rfl⟩
  | lw rd rs =>
    have hread : ∀ s', SameReads (.lw rd rs) s s' → dataAddress s' rs = s.reg rs :=
      fun _ h => h.reg_one rfl
    by_cases ho : isOdd (s.reg rs)
    · exact ⟨_, _, acts_of_counted nofun (.inr (by simp [State.endsWith, ho])) fun s' h => by
        simp only [exec, execLw, hread s' h, ho, if_true]
        rfl⟩
    · exact ⟨_, _, acts_of_writeAndContinue rfl (if_neg ho) fun s' h => by
        simp only [exec, execLw, hread s' h, ho, h.dmem ⟨rd, rs, rfl⟩]
        rfl⟩
  | sw rs rt =>
    have hread : ∀ s', SameReads (.sw rs rt) s s' → dataAddress s' rs = s.reg rs ∧ s'.reg rt = s.reg rt :=
      fun _ h => h.reg_two rfl
    by_cases ho : isOdd (s.reg rs)
    · exact ⟨_, _, acts_of_counted nofun (.inl rfl) fun s' h => by
        simp only [exec, execSw, hread s' h, ho, if_true]
        rfl⟩
    · refine ⟨.store (s.reg rs) (s.reg rt), .continueAt s.nextPc, ⟨rs, rt, rfl⟩, fun s' h => ?_⟩
      simp only [exec, execSw, hread s' h, ho, State.nextPc, h.pc]
      rfl
  | jr rs =>
    exact ⟨_, _, acts_of_counted nofun (.inl rfl) fun s' h => by
      rw [exec, execJr, h.reg_one rfl]
      rfl⟩
  | jalr rd rs =>
    refine ⟨.write rd s.nextPc, .continueAt (s.reg rs), ⟨rfl, ?_⟩, fun s' h => ?_⟩
    · by_cases hr : s.reg rs = 0xFFFF
      · exact .inr (if_pos hr)
      · exact .inl (if_neg hr)
    · rw [exec, execJalr, h.reg_one rfl, State.nextPc, h.pc]
      rfl
  | bp rd imm8 | bn rd imm8 | bx rd imm8 | bz rd imm8 =>
    exact ⟨_, _, acts_of_counted nofun (.inl rfl) fun s' h => by
      simp only [exec, execBp, execBn, execBx, execBz, branchIf, State.nextPc, h.reg_one rfl,
        h.pc]
      rfl⟩
  | j imm11 =>
    exact ⟨_, _, acts_of_counted nofun (.inl rfl) fun s' h => by
      rw [exec, execJ, h.pc]
      rfl⟩
  | halt => exact ⟨.nothing, .halt, .inl rfl, fun _ _ => rfl⟩
  | put rs =>
    refine ⟨.output (s.reg rs), .continueAt s.nextPc, rfl, fun s' h => ?_⟩
    rw [exec, execPut, h.reg_one rfl, State.nextPc, h.pc]
    rfl

theorem acts_of_exec {t : State} (h : exec i s = .next t) :
    ∃ e o, Acts i s e o ∧ commit ((s.accounted i).apply e) o = t := by
  obtain ⟨e, o, ha⟩ := exec_acts i s
  have hs : exec i s = .next (commit ((s.accounted i).apply e) o) := ha.2 s ⟨rfl, fun _ _ => rfl, fun _ => rfl⟩
  exact ⟨e, o, ha, by simpa using hs.symm.trans h⟩

/-- An instruction writes the register it names, unless it ends fatally before it completes. -/
theorem Acts.write_iff {e : Effect} {o : HandlerOutcome} (h : Acts i s e o) (q : Reg) :
    (∃ v, e = .write q v) ↔
      i.writtenReg = some q ∧ (s.endsWith i = none ∨ s.endsWith i = some .sentinelTarget) := by
  obtain ⟨hf, -⟩ := h
  cases e with
  | nothing =>
    refine ⟨nofun, fun ⟨hq, hr⟩ => ?_⟩
    rcases hf with hn | hn
    · simp [hn] at hq
    · exact absurd hr hn
  | write rd v =>
    obtain ⟨hw, hr⟩ := hf
    simp [hw, hr]
  | store a v => obtain ⟨rs, rt, rfl⟩ := hf; simp [Instr.writtenReg]
  | output v => simp [show i.writtenReg = none from hf]

/-- A change of the state that commutes with moving `pc` and with ending the run commutes with the commit. -/
theorem commit_comm {f : State → State} (hpc : ∀ s t, (f s).setPc t = f (s.setPc t))
    (hend : ∀ s r, (f s).terminate r = f (s.terminate r)) (habort : ∀ s r, (f s).abort r = f (s.abort r))
    (s : State) (o : HandlerOutcome) : commit (f s) o = f (commit s o) := by
  rcases commit_cases s o with ⟨t, rfl, ht, h⟩ | ⟨rfl, h⟩ | ⟨rfl, h⟩ | ⟨r, rfl, h⟩
  · rw [h, commit_continueAt _ ht, hpc]
  · rw [h, commit_sentinel, habort]
  · rw [h, commit_halt, hend]
  · rw [h, commit_fatal, habort]

/-! ## A step without an instruction -/

/-- A step that dispatches no instruction ends at an odd `pc` or skips an unknown opcode, and does the same at every
state with the same `run`, `pc` and program memory. -/
theorem step_of_no_dispatch {s t : State} (h : step s = .next t) (hd : ∀ i, ¬ s.Dispatches i) :
    ∃ f : State → State, (f = endMisaligned ∨ ∃ e, f = (skipUnknown · e)) ∧ t = f s ∧
      ∀ s' : State, s'.run = s.run → s'.pc = s.pc → s'.imem = s.imem → step s' = .next (f s') := by
  obtain ⟨hr, ⟨ho, ht⟩ | ⟨ho, i, hi, -⟩ | ⟨ho, e, he, ht⟩⟩ := step_cases s h
  · refine ⟨endMisaligned, .inl rfl, ht, fun s' hr' hpc _ => ?_⟩
    simp [step, fetch, hr', hr, hpc, ho]
  · exact absurd ⟨hr, ho, hi⟩ (hd i)
  · refine ⟨(skipUnknown · e), .inr ⟨e, rfl⟩, ht, fun s' hr' hpc hm => ?_⟩
    simp [step, fetch, hr', hr, hpc, ho, hm, he]

/-! ## Data memory (10_state.md R31) -/

theorem commit_withDmem (s : State) (m : Memory) (o : HandlerOutcome) :
    commit { s with dmem := m } o = { commit s o with dmem := m } :=
  commit_comm (f := fun s => { s with dmem := m }) (fun _ _ => rfl) (fun _ _ => rfl) (fun _ _ => rfl) s o

/-- Another content of data memory stays out of everything but data memory. -/
theorem commit_apply_withDmem (s : State) (i : Instr) (e : Effect) (o : HandlerOutcome) (m : Memory) :
    ∃ m', commit ((State.accounted { s with dmem := m } i).apply e) o =
      { commit ((s.accounted i).apply e) o with dmem := m' } := by
  cases e with
  | store a v => exact ⟨_, commit_withDmem ((s.accounted i).storeWord a v) (Memory.writeWord m a v) o⟩
  | nothing => exact ⟨m, commit_withDmem (s.accounted i) m o⟩
  | write rd v => exact ⟨m, commit_withDmem ((s.accounted i).setReg rd v) m o⟩
  | output v => exact ⟨m, commit_withDmem ((s.accounted i).emit (.put v)) m o⟩

/-- Settles O22: only a SW has the effect of a store, and only a LW's effect depends on data memory. -/
theorem dataMemoryIsOnlyForLwAndSw : Obligations.DataMemoryIsOnlyForLwAndSw := by
  refine ⟨fun i s t h => ?_, fun s t h hd => ?_⟩
  · obtain ⟨e, o, ha, rfl⟩ := acts_of_exec h
    refine ⟨fun hsw a => ?_, fun hlw m => ?_⟩
    · cases e with
      | store _ _ => obtain ⟨rs, rt, rfl⟩ := ha.1; exact absurd rfl (hsw rs rt)
      | nothing | write _ _ | output _ => rw [commit_dmem]; rfl
    · obtain ⟨m', hm⟩ := commit_apply_withDmem s i e o m
      exact ⟨m', hm ▸ ha.2 _ ⟨rfl, fun _ _ => rfl, fun ⟨rd, rs, hi⟩ => absurd hi (hlw rd rs)⟩⟩
  · obtain ⟨f, rfl | ⟨e, rfl⟩, rfl, hstep⟩ := step_of_no_dispatch h hd
    · exact ⟨fun _ => rfl, fun m => hstep _ rfl rfl rfl⟩
    · cases e; exact ⟨fun _ => rfl, fun m => hstep _ rfl rfl rfl⟩

/-! ## The registers (10_state.md R17, R18) -/

theorem setReg_setReg_self (s : State) (r : Reg) (v w : Word) : (s.setReg r v).setReg r w = s.setReg r w := by
  simp [State.setReg]

theorem setReg_comm (s : State) {r q : Reg} (h : r ≠ q) (v w : Word) :
    (s.setReg r v).setReg q w = (s.setReg q w).setReg r v := by
  simp [State.setReg, Vector.set_comm v w (Fin.val_ne_of_ne h)]

theorem accounted_setReg (s : State) (q : Reg) (v : Word) (i : Instr) :
    (s.setReg q v).accounted i = (s.accounted i).setReg q v := rfl

theorem commit_setReg (s : State) (q : Reg) (v : Word) (o : HandlerOutcome) :
    commit (s.setReg q v) o = (commit s o).setReg q v :=
  commit_comm (f := (State.setReg · q v)) (fun _ _ => rfl) (fun _ _ => rfl) (fun _ _ => rfl) s o

/-- A value put in a register before an effect stands after it, unless the effect writes that register. -/
theorem apply_setReg (s : State) (e : Effect) (q : Reg) (v : Word) (h : ∀ w, e ≠ .write q w) :
    (s.setReg q v).apply e = (s.apply e).setReg q v := by
  cases e with
  | write rd w => exact setReg_comm s (fun hq => h w (by rw [hq])) v w
  | nothing | store _ _ | output _ => rfl

theorem apply_write_setReg (s : State) (q : Reg) (v w : Word) :
    (s.setReg q v).apply (.write q w) = s.apply (.write q w) :=
  setReg_setReg_self s q v w

/-- An effect that is no register write leaves the registers. -/
theorem apply_x (s : State) (e : Effect) (h : ∀ rd v, e ≠ .write rd v) : (s.apply e).x = s.x := by
  cases e with
  | write rd v => exact absurd rfl (h rd v)
  | nothing | store _ _ | output _ => rfl

theorem apply_reg (s : State) (e : Effect) (q : Reg) (h : ∀ v, e ≠ .write q v) : (s.apply e).reg q = s.reg q := by
  cases e with
  | write rd v => exact reg_setReg_of_ne s v fun hq => h v (by rw [hq])
  | nothing | store _ _ | output _ => rfl

/-- Settles O36: a register value put in before an instruction meets only an effect that writes the register. -/
theorem registersReadAndWrittenAreTheNamedOnes : Obligations.RegistersReadAndWrittenAreTheNamedOnes := by
  refine ⟨fun i s t h => ?_, fun s t h hd => ?_⟩
  · obtain ⟨e, o, ha, rfl⟩ := acts_of_exec h
    refine ⟨fun q hq => ?_, fun r hr hs => ?_, fun q v hq => ?_⟩
    · rw [commit_reg, apply_reg _ e q fun w hw => hq ((ha.write_iff q).mp ⟨w, hw⟩).1]
      rfl
    · rw [commit_x, apply_x _ e fun rd w hw => ?_]
      · rfl
      · simpa [hr, hs] using ((ha.write_iff rd).mp ⟨w, hw⟩).2
    · rw [ha.2 (s.setReg q v) ⟨rfl, fun r hr => reg_setReg_of_ne s v fun hrq => hq (hrq ▸ hr), fun _ => rfl⟩,
        accounted_setReg]
      split
      case isTrue hw =>
        obtain ⟨w, rfl⟩ := (ha.write_iff q).mpr hw
        rw [apply_write_setReg]
      case isFalse hw =>
        rw [apply_setReg _ e q v fun w he => hw ((ha.write_iff q).mp ⟨w, he⟩), commit_setReg]
  · obtain ⟨f, rfl | ⟨e, rfl⟩, rfl, hstep⟩ := step_of_no_dispatch h hd
    · exact ⟨rfl, fun q v => hstep _ rfl rfl rfl⟩
    · cases e; exact ⟨rfl, fun q v => hstep _ rfl rfl rfl⟩

/-! ## Loading a register (10_state.md R17) -/

/-- LIZ then LUI put together the two bytes. -/
theorem upperReplaced_zeroExtended (hi lo : BitVec 8) : upperReplaced hi (zeroExtended lo) = hi ++ lo := by
  have : (zeroExtended lo).extractLsb' 0 8 = lo := by
    rw [zeroExtended, BitVec.extractLsb'_setWidth_of_le (by decide), BitVec.extractLsb'_eq_self]
  rw [upperReplaced, this]

/-- Settles O18: LIZ leaves an even `pc`, so LUI completes as well. -/
theorem everyRegisterTakesEveryValue : Obligations.EveryRegisterTakesEveryValue := by
  intro s r v h
  refine ⟨_, _, writeAndContinue_next s .liz r _ h, writeAndContinue_next _ .lui r _ (nextPc_even s h), ?_, ?_⟩
  · simp [upperReplaced_zeroExtended, append_bytes]
  · intro q hq
    simp [reg_setReg_of_ne, hq]

end Sys2Proof.Machine

/-! # Both memories over a run (20_memory.md R39, R46, R49)

LW and SW each do one of two things, by the parity of their address. A step changes the word at an even address only by
a SW to that address, since two words at even addresses share no byte; it never changes program memory. A property that
every step of a run keeps holds at its end: `runFor_induction`. -/

namespace Sys2Proof.Machine

variable {s t : State}

/-! ## Words at even addresses -/

theorem isOdd_eq_false_iff (a : Word) : isOdd a = false ↔ a.toNat % 2 = 0 := by
  simp [isOdd, BitVec.getLsbD, Nat.testBit_zero]

/-- A word at an even address does not wrap. -/
theorem succ_toNat_of_even {a : Word} (h : isOdd a = false) : (a + 1).toNat = a.toNat + 1 := by
  rw [isOdd_eq_false_iff] at h
  bv_omega

/-- Words at two even addresses share no byte: a store to one leaves the other. -/
theorem readWord_writeWord_of_ne {a b : Word} (m : Memory) (v : Word) (ha : isOdd a = false) (hb : isOdd b = false)
    (h : a ≠ b) : Memory.readWord (Memory.writeWord m a v) b = Memory.readWord m b := by
  have hne : a.toNat ≠ b.toNat := fun e => h (BitVec.eq_of_toNat_eq e)
  have ha2 := (isOdd_eq_false_iff a).mp ha
  have hb2 := (isOdd_eq_false_iff b).mp hb
  simp only [Memory.readWord, read_writeWord, succ_toNat_of_even ha, succ_toNat_of_even hb]
  rw [if_neg (by omega), if_neg (by omega), if_neg (by omega), if_neg (by omega)]

/-! ## LW and SW by the parity of their address -/

theorem exec_lw_of_odd (rd : Reg) {rs : Reg} (h : isOdd (s.reg rs) = true) :
    exec (.lw rd rs) s = .next ((s.counted .lw).abort .unalignedAccess) :=
  if_pos h

theorem exec_lw_of_even (rd : Reg) {rs : Reg} (h : isOdd (s.reg rs) = false) :
    exec (.lw rd rs) s = .next (commit ((s.counted .lw).setReg rd (Memory.readWord s.dmem (s.reg rs)))
      (.continueAt s.nextPc)) :=
  if_neg (Bool.eq_false_iff.mp h)

theorem exec_sw_of_odd {rs : Reg} (rt : Reg) (h : isOdd (s.reg rs) = true) :
    exec (.sw rs rt) s = .next ((s.counted .sw).abort .unalignedAccess) :=
  if_pos h

theorem exec_sw_of_even {rs : Reg} (rt : Reg) (h : isOdd (s.reg rs) = false) :
    exec (.sw rs rt) s = .next (commit ((s.counted .sw).storeWord (s.reg rs) (s.reg rt)) (.continueAt s.nextPc)) :=
  if_neg (Bool.eq_false_iff.mp h)

/-- Continuing leaves the reason, or ends the run at the sentinel. -/
theorem commit_continueAt_reason (s : State) (a : Word) :
    (commit s (.continueAt a)).reason = s.reason ∨ (commit s (.continueAt a)).reason = .sentinelTarget := by
  by_cases h : a = 0xFFFF
  · exact .inr (by rw [h, commit_sentinel, abort_reason])
  · exact .inl (by rw [commit_continueAt s h, setPc_reason])

theorem commit_continueAt_reason_ne_unaligned (a : Word) (h : s.reason ≠ .unalignedAccess) :
    (commit s (.continueAt a)).reason ≠ .unalignedAccess := by
  rcases commit_continueAt_reason s a with hr | hr <;> simp [hr, h]

/-- Settles O21: at an odd address either instruction aborts, at an even one it continues. -/
theorem dataAccessRequiresAnEvenAddress : Obligations.DataAccessRequiresAnEvenAddress := by
  rintro s i rs (⟨rd, rfl⟩ | ⟨rt, rfl⟩)
  · exact ⟨fun ho => ⟨_, exec_lw_of_odd rd ho, rfl, rfl, rfl, rfl⟩,
      fun he hr => ⟨_, exec_lw_of_even rd he, commit_continueAt_reason_ne_unaligned _ hr⟩⟩
  · exact ⟨fun ho => ⟨_, exec_sw_of_odd rt ho, rfl, rfl, rfl, rfl⟩,
      fun he hr => ⟨_, exec_sw_of_even rt he, commit_continueAt_reason_ne_unaligned _ hr⟩⟩

/-! ## Runs -/

theorem step_of_dispatches {i : Instr} (h : s.Dispatches i) : step s = exec i s := by
  obtain ⟨hr, ho, hi⟩ := h
  have hi : decodeWord (Memory.readWord s.imem s.pc) = .ok i := hi
  simp [step, fetch, hr, ho, hi]

theorem runFor_succ_of_next (n : Nat) (h : step s = .next t) : runFor (n + 1) s = runFor n t := by
  simp [runFor, h]

/-- Where there is no step a run stays. -/
theorem runFor_of_no_next (n : Nat) (h : ∀ t, step s ≠ .next t) : runFor n s = s := by
  cases n with
  | zero => rfl
  | succ n =>
    unfold runFor
    split
    · exact absurd ‹_› (h _)
    · rfl
    · rfl

theorem runFor_add (m n : Nat) (s : State) : runFor (m + n) s = runFor n (runFor m s) := by
  induction m generalizing s with
  | zero => simp [runFor]
  | succ m ih =>
    by_cases h : ∃ t, step s = .next t
    · obtain ⟨t, ht⟩ := h
      rw [Nat.add_right_comm, runFor_succ_of_next _ ht, runFor_succ_of_next _ ht, ih]
    · have h := not_exists.mp h
      simp only [runFor_of_no_next _ h]

/-- A property of the start that every step of the run keeps holds at its end. -/
theorem runFor_induction {P : State → Prop} {n : Nat} (h0 : P s)
    (hstep : ∀ k < n, ∀ t, step (runFor k s) = .next t → P (runFor k s) → P t) : P (runFor n s) := by
  induction n with
  | zero => exact h0
  | succ n ih =>
    have hn : P (runFor n s) := ih fun k hk => hstep k (Nat.lt_succ_of_lt hk)
    rw [runFor_add n 1]
    by_cases h : ∃ t, step (runFor n s) = .next t
    · obtain ⟨t, ht⟩ := h
      rw [runFor_succ_of_next 0 ht]
      exact hstep n n.lt_succ_self t ht hn
    · rwa [runFor_of_no_next 1 (not_exists.mp h)]

/-! ## Program memory (20_memory.md R49) -/

theorem apply_imem (s : State) (e : Effect) : (s.apply e).imem = s.imem := by
  cases e <;> rfl

theorem step_imem (h : step s = .next t) : t.imem = s.imem := by
  obtain ⟨-, ⟨-, rfl⟩ | ⟨-, i, -, hi⟩ | ⟨-, e, -, rfl⟩⟩ := step_cases s h
  · rfl
  · obtain ⟨e, o, -, rfl⟩ := acts_of_exec hi
    rw [commit_imem, apply_imem]
    rfl
  · cases e
    rfl

/-- Settles O40: every step leaves program memory, and a fetch looks at nothing but `pc` and program memory. -/
theorem programsCannotModifyTheirCode : Obligations.ProgramsCannotModifyTheirCode := fun _ s =>
  ⟨runFor_induction (P := fun t => t.imem = s.imem) rfl fun _ _ _ ht hk => (step_imem ht).trans hk, fun _ => rfl⟩

/-! ## The latest store (20_memory.md R46) -/

/-- A SW leaves the word at every other even address, also when its own address is odd. -/
theorem exec_sw_readWord {rs rt : Reg} {a : Word} (ha : isOdd a = false) (h : exec (.sw rs rt) s = .next t)
    (hne : s.reg rs ≠ a) : Memory.readWord t.dmem a = Memory.readWord s.dmem a := by
  cases ho : isOdd (s.reg rs) with
  | true =>
    rw [exec_sw_of_odd rt ho] at h
    cases h
    rfl
  | false =>
    rw [exec_sw_of_even rt ho] at h
    cases h
    simpa using readWord_writeWord_of_ne s.dmem (s.reg rt) ho ha hne

/-- A step that dispatches no SW to an even address leaves the word there. -/
theorem step_readWord {a : Word} (ha : isOdd a = false) (h : step s = .next t)
    (hno : ∀ p q, s.Dispatches (.sw p q) → s.reg p ≠ a) : Memory.readWord t.dmem a = Memory.readWord s.dmem a := by
  obtain ⟨hexec, hstep⟩ := dataMemoryIsOnlyForLwAndSw
  by_cases hd : ∃ i, s.Dispatches i
  · obtain ⟨i, hi⟩ := hd
    rw [step_of_dispatches hi] at h
    by_cases hsw : ∃ p q, i = .sw p q
    · obtain ⟨p, q, rfl⟩ := hsw
      exact exec_sw_readWord ha h (hno p q hi)
    · have hread := (hexec i s t h).1 fun p q hi => hsw ⟨p, q, hi⟩
      simp only [Memory.readWord, hread]
  · have hread := (hstep s t h (not_exists.mp hd)).1
    simp only [Memory.readWord, hread]

/-- Steps that dispatch no SW to an even address leave the word there. -/
theorem runFor_readWord {a : Word} {n : Nat} (ha : isOdd a = false)
    (hno : ∀ k < n, ∀ p q, (runFor k s).Dispatches (.sw p q) → (runFor k s).reg p ≠ a) :
    Memory.readWord (runFor n s).dmem a = Memory.readWord s.dmem a :=
  runFor_induction (P := fun t => Memory.readWord t.dmem a = Memory.readWord s.dmem a) rfl
    fun k hk _ ht hr => (step_readWord ha ht (hno k hk)).trans hr

theorem runFor_one_sw_dmem {rs rt : Reg} (hd : s.Dispatches (.sw rs rt)) (he : isOdd (s.reg rs) = false) :
    (runFor 1 s).dmem = Memory.writeWord s.dmem (s.reg rs) (s.reg rt) := by
  rw [runFor_succ_of_next 0 ((step_of_dispatches hd).trans (exec_sw_of_even rt he))]
  simp [runFor]

theorem runFor_one_lw_reg {rd rs : Reg} (hd : s.Dispatches (.lw rd rs)) (he : isOdd (s.reg rs) = false) :
    (runFor 1 s).reg rd = Memory.readWord s.dmem (s.reg rs) := by
  rw [runFor_succ_of_next 0 ((step_of_dispatches hd).trans (exec_lw_of_even rd he))]
  simp [runFor]

theorem readWord_nil (a : Word) : Memory.readWord [] a = 0 := by
  simp [Memory.readWord, Memory.read]

/-- Data memory starts with every byte 0x00 (10_state.md R34). -/
theorem boot_dmem {image : List Byte} {c : LatencyConfig} (h : boot image c = .ok s) : s.dmem = [] := by
  unfold boot at h
  split at h
  · cases h
  · split at h <;> cases h
    rfl

/-- Settles O23: the word at the address stands from the SW, or from the start, until the LW reads it. -/
theorem loadReturnsTheLatestStore : Obligations.LoadReturnsTheLatestStore := by
  refine ⟨fun n s rs rt rd rs' hsw he hno hlw hrs => ?_, fun n image c s rd rs hb he hno hlw => ?_⟩
  · have hkeep : Memory.readWord (runFor n (runFor 1 s)).dmem (s.reg rs) =
        Memory.readWord (runFor 1 s).dmem (s.reg rs) := by
      refine runFor_readWord he fun k hk p q hd => ?_
      rw [← runFor_add, Nat.add_comm] at hd ⊢
      exact hno (k + 1) k.succ_pos (Nat.succ_lt_succ hk) p q hd
    rw [runFor_add (n + 1) 1, runFor_one_lw_reg hlw (hrs ▸ he), hrs, Nat.add_comm n 1, runFor_add, hkeep,
      runFor_one_sw_dmem hsw he, readWord_writeWord_self]
  · rw [runFor_add, runFor_one_lw_reg hlw he, runFor_readWord he hno, boot_dmem hb, readWord_nil]

end Sys2Proof.Machine

/-! # The opcode field selects the instruction (30_encoding.md R58, R60)

A word of a kind's opcode decodes to that kind's instruction. The opcodes of no kind are the ten of `unusedOpcodes`: a
word of one of them is no instruction, and the step at it is `skipUnknown`. -/

namespace Sys2Proof

variable {w : Word}

/-- The ten opcode values that select no instruction (30_encoding.md R60). -/
def unusedOpcodes : List (BitVec 5) := [0x0A, 0x0B, 0x0F, 0x19, 0x1A, 0x1B, 0x1C, 0x1D, 0x1E, 0x1F]

/-- The map of the 32 opcode values: those of no kind are the ten. -/
theorem ofOpcode_eq_none_iff (op : BitVec 5) : Mnemonic.ofOpcode op = none ↔ op ∈ unusedOpcodes := by
  revert op
  decide

theorem decodeWord_of_opcode (w : Word) (m : Mnemonic) (h : opcodeField w = m.opcode) :
    decodeWord w = .ok (m.decodeFields w) := by
  rw [decodeWord, h, ofOpcode_opcode]

theorem decodeWord_of_unused (h : opcodeField w ∈ unusedOpcodes) :
    decodeWord w = .error (.unknownOpcode (opcodeField w)) := by
  rw [decodeWord, (ofOpcode_eq_none_iff _).mpr h]

theorem exists_decodeWord_of_not_unused (h : opcodeField w ∉ unusedOpcodes) : ∃ i, decodeWord w = .ok i := by
  obtain ⟨m, hm⟩ := Option.ne_none_iff_exists'.mp (mt (ofOpcode_eq_none_iff _).mp h)
  exact ⟨_, decodeWord_of_opcode w m (ofOpcode_eq_some.mp hm).symm⟩

/-- The ten values as numbers. -/
theorem toNat_mem_unusedOpcodes (op : BitVec 5) :
    op.toNat ∈ [0x0A, 0x0B, 0x0F, 0x19, 0x1A, 0x1B, 0x1C, 0x1D, 0x1E, 0x1F] ↔ op ∈ unusedOpcodes :=
  List.mem_map_of_injective (l := unusedOpcodes) fun _ _ => BitVec.eq_of_toNat_eq

/-- Settles O4: each of the 22 opcodes is its kind's, and the other ten are `unusedOpcodes`. -/
theorem opcodeFieldSelectsTheInstruction : Obligations.OpcodeFieldSelectsTheInstruction := by
  rintro w _ _ _ _ _ rfl rfl rfl rfl rfl
  have select := decodeWord_of_opcode w
  refine ⟨select .add, select .sub, select .and, select .nor, select .div, select .mul, select .mod, select .exp,
    select .lw, select .sw, select .jr, select .halt, select .put, select .liz, select .lis, select .lui, select .jalr,
    select .bp, select .bn, select .bx, select .bz, select .j, fun hop i hi => ?_⟩
  cases (decodeWord_of_unused hop).symm.trans hi

end Sys2Proof

namespace Sys2Proof.Machine

variable {s : State}

/-- A running machine skips a word that is no instruction (44_system.md R93). -/
theorem step_of_undecoded {e : DecodeError} (hr : s.run = .running) (ho : isOdd s.pc = false)
    (he : decodeWord s.wordAtPc = .error e) : step s = .next (skipUnknown s e) := by
  have he : decodeWord (Memory.readWord s.imem s.pc) = .error e := he
  simp [step, fetch, hr, ho, he]

theorem skipUnknown_diags (s : State) (op : BitVec 5) :
    diags (skipUnknown s (.unknownOpcode op)).events = diags s.events ++ [.unknownOpcode op s.pc] := by
  simp [skipUnknown, diags]

/-- Settles O3: a word of the ten decodes to the error that the step skips, with one diagnostic. -/
theorem tenOpcodesSelectNoInstruction : Obligations.TenOpcodesSelectNoInstruction := by
  intro w
  rw [toNat_mem_unusedOpcodes]
  refine ⟨fun hop => ?_, exists_decodeWord_of_not_unused⟩
  have hd : decodeWord w = .error (.unknownOpcode (opcodeField w)) := decodeWord_of_unused hop
  refine ⟨hd, fun s hr ho hw => ?_⟩
  exact ⟨_, _, step_of_undecoded hr ho (hw ▸ hd), hr, rfl, skipUnknown_diags s _⟩

end Sys2Proof.Machine

/-! # Arithmetic and logic (40_arithmetic.md)

The mask 0xF800 keeps the opcode field, so a word that agrees under it with a word of a kind's opcode decodes to that
kind. A handler that writes one register changes, beside its accounting, that register and `pc`. -/

namespace Sys2Proof

variable {w v : Word}

@[simp] theorem opcodeField_and_opcodeMask (w : Word) : opcodeField (w &&& 0xF800) = opcodeField w := by
  have hmask : (0xF800 : Word).extractLsb' 11 5 = BitVec.allOnes 5 := by decide
  rw [opcodeField, BitVec.extractLsb'_and, hmask, BitVec.and_allOnes, ← opcodeField]

theorem decodeWord_of_masked (m : Mnemonic) (hv : opcodeField v = m.opcode) (h : w &&& 0xF800 = v) :
    decodeWord w = .ok (m.decodeFields w) :=
  decodeWord_of_opcode w m (by rw [← hv, ← h, opcodeField_and_opcodeMask])

end Sys2Proof

namespace Sys2Proof.Machine

theorem writeAndContinue_eq_withRetired {s : State} (k : Mnemonic) (rd : Reg) (v : Word) (h : isOdd s.pc = false) :
    writeAndContinue k rd v s = .next { s.withRetired k with x := s.x.set rd v, pc := s.pc + 2 } :=
  writeAndContinue_next s k rd v h

/-- Settles O12: the opcode under the mask selects the kind, and each of the two writes its one register. -/
theorem andNorWriteTheBitwiseResult : Obligations.AndNorWriteTheBitwiseResult := by
  refine ⟨fun w => ⟨?_, ?_⟩, fun s rd rs rt h => ⟨?_, ?_⟩⟩
  · exact decodeWord_of_masked .and rfl
  · exact decodeWord_of_masked .nor rfl
  · exact writeAndContinue_eq_withRetired .and rd _ h
  · exact writeAndContinue_eq_withRetired .nor rd _ h

end Sys2Proof.Machine

/-! # The immediate loads (42_immediate.md)

LIZ and LIS write the unsigned and the signed value of the immediate; LUI's concatenation is the shift and the mask of
R80. -/

namespace Sys2Proof.Machine

/-- The mask 0x00FF keeps the low byte, zero-extended. -/
theorem and_lowByteMask (w : Word) : w &&& 0x00FF = (w.extractLsb' 0 8).setWidth 16 := by
  have hand : w &&& 0x00FF = 0#8 ++ w.setWidth 8 := BitVec.and_setWidth_allOnes 8 8 w
  rw [hand, BitVec.setWidth_eq_extractLsb' (by decide), BitVec.setWidth_eq_append (by decide), BitVec.cast_eq]

/-- LUI's value as 42_immediate.md R80 writes it. -/
theorem upperReplaced_eq (imm8 : BitVec 8) (old : Word) :
    upperReplaced imm8 old = (imm8.setWidth 16 <<< 8) ||| (old &&& 0x00FF) := by
  rw [upperReplaced, BitVec.append_def, BitVec.shiftLeftZeroExtend_eq, BitVec.setWidth'_eq, and_lowByteMask]

theorem zeroExtended_eq_ofNat (imm8 : BitVec 8) : zeroExtended imm8 = BitVec.ofNat 16 imm8.toNat :=
  (BitVec.ofNat_toNat 16 imm8).symm

theorem signExtended_eq_ofInt (imm8 : BitVec 8) : signExtended imm8 = BitVec.ofInt 16 imm8.toInt := rfl

/-- Settles O17: the opcode under the mask selects the kind, and each of the three writes its one register. -/
theorem immediateLoadsWriteTheirValue : Obligations.ImmediateLoadsWriteTheirValue := by
  refine ⟨fun w => ⟨?_, ?_, ?_⟩, fun s rd imm8 h => ⟨?_, ?_, ?_⟩⟩
  · exact decodeWord_of_masked .liz rfl
  · exact decodeWord_of_masked .lis rfl
  · exact decodeWord_of_masked .lui rfl
  · rw [← zeroExtended_eq_ofNat]
    exact writeAndContinue_eq_withRetired .liz rd _ h
  · rw [← signExtended_eq_ofInt]
    exact writeAndContinue_eq_withRetired .lis rd _ h
  · rw [← upperReplaced_eq]
    exact writeAndContinue_eq_withRetired .lui rd _ h

end Sys2Proof.Machine

/-! # The control transfers (43_control_transfer.md)

The targets, written as shifts and masks, are the double of the immediate and the concatenation with the page of the
`pc`. Both are even, so going on there never ends the run at the sentinel. -/

namespace Sys2Proof.Machine

/-- An operand shifted by one is doubled where the word has room for it. -/
theorem toNat_setWidth_shiftLeft_one {n : Nat} (v : BitVec n) (hn : n ≤ 15) :
    (v.setWidth 16 <<< 1).toNat = 2 * v.toNat := by
  have hv : v.toNat < 2 ^ 15 := v.isLt.trans_le (Nat.pow_le_pow_right (by decide) hn)
  rw [BitVec.toNat_shiftLeft, BitVec.toNat_setWidth, Nat.shiftLeft_eq]
  omega

/-- The mask 0x1FF keeps the double of eight bits. -/
theorem branchTarget_eq_ofNat (imm8 : BitVec 8) : branchTarget imm8 = BitVec.ofNat 16 (2 * imm8.toNat) := by
  have hmask : (branchTarget imm8).toNat = (imm8.setWidth 16 <<< 1).toNat % 512 := Nat.and_two_pow_sub_one_eq_mod _ 9
  have hlt : imm8.toNat < 256 := imm8.isLt
  refine BitVec.eq_of_toNat_eq ?_
  rw [hmask, toNat_setWidth_shiftLeft_one imm8 (by decide), BitVec.toNat_ofNat]
  omega

/-- The mask 0xF000 keeps the page. -/
theorem and_pageMask (w : Word) : w &&& 0xF000#16 = w.extractLsb' 12 4 ++ 0#12 := by
  have hw : w.extractLsb' 12 4 ++ w.extractLsb' 0 12 = w :=
    (BitVec.extractLsb'_append_extractLsb'_eq_extractLsb' rfl).trans BitVec.extractLsb'_eq_self
  calc w &&& 0xF000#16
      = (w.extractLsb' 12 4 ++ w.extractLsb' 0 12) &&& (BitVec.allOnes 4 ++ 0#12) := by rw [hw]; rfl
    _ = w.extractLsb' 12 4 ++ 0#12 := by rw [BitVec.and_append, BitVec.and_allOnes, BitVec.and_zero]

/-- The doubled immediate leaves the page clear. -/
theorem setWidth_shiftLeft_one_eq_append (imm11 : BitVec 11) :
    imm11.setWidth 16 <<< 1 = 0#4 ++ (imm11 ++ 0#1) := by
  have happend : (0#4 ++ (imm11 ++ 0#1)).toNat = 2 * imm11.toNat := by
    rw [BitVec.toNat_append, BitVec.toNat_append]
    simp [Nat.shiftLeft_eq, Nat.mul_comm]
  exact BitVec.eq_of_toNat_eq ((toNat_setWidth_shiftLeft_one imm11 (by decide)).trans happend.symm)

/-- J's target: the page above, the doubled immediate below. -/
theorem pageTarget_eq_append (pc : Word) (imm11 : BitVec 11) :
    pageTarget pc imm11 = pc.extractLsb' 12 4 ++ imm11 ++ 0#1 :=
  calc pageTarget pc imm11
      = (pc &&& 0xF000#16) ||| (imm11.setWidth 16 <<< 1) := rfl
    _ = (pc.extractLsb' 12 4 ++ 0#12) ||| (0#4 ++ (imm11 ++ 0#1)) := by
      rw [and_pageMask, setWidth_shiftLeft_one_eq_append]
    _ = pc.extractLsb' 12 4 ++ (imm11 ++ 0#1) := by rw [BitVec.or_append, BitVec.or_zero, BitVec.zero_or]
    _ = pc.extractLsb' 12 4 ++ imm11 ++ 0#1 := BitVec.append_assoc'

theorem branchIf_eq_withRetired {s : State} (k : Mnemonic) (c : Prop) [Decidable c] (imm8 : BitVec 8)
    (h : isOdd s.pc = false) :
    branchIf k (decide c) imm8 s =
      .next { s.withRetired k with pc := if c then BitVec.ofNat 16 (2 * imm8.toNat) else s.pc + 2 } := by
  rw [branchIf_next s k _ imm8 h, branchTarget_eq_ofNat]
  simp only [decide_eq_true_iff]
  rfl

/-- Settles O24: the opcode under the mask selects the kind, and each of the four is `branchIf` of its signed test. -/
theorem branchesGoToTheAbsoluteTarget : Obligations.BranchesGoToTheAbsoluteTarget := by
  refine ⟨fun w => ⟨?_, ?_, ?_, ?_⟩, fun s rd imm8 h => ⟨?_, ?_, ?_, ?_⟩⟩
  · exact decodeWord_of_masked .bp rfl
  · exact decodeWord_of_masked .bn rfl
  · exact decodeWord_of_masked .bx rfl
  · exact decodeWord_of_masked .bz rfl
  · exact branchIf_eq_withRetired .bp (0 < (s.reg rd).toInt) imm8 h
  · exact branchIf_eq_withRetired .bn ((s.reg rd).toInt < 0) imm8 h
  · exact branchIf_eq_withRetired .bx ((s.reg rd).toInt ≠ 0) imm8 h
  · exact branchIf_eq_withRetired .bz ((s.reg rd).toInt = 0) imm8 h

theorem exec_j (s : State) (imm11 : BitVec 11) :
    exec (.j imm11) s = .next ((s.counted .j).setPc (pageTarget s.pc imm11)) :=
  (complete_next _).mpr (commit_continueAt _ (ne_sentinel_of_even (pageTarget_even s.pc imm11))).symm

/-- Settles O25: J's target is even, so it is never the sentinel, whatever the `pc`. -/
theorem pageJumpKeepsThePage : Obligations.PageJumpKeepsThePage := by
  refine ⟨fun w => decodeWord_of_masked .j rfl, fun s imm11 => ?_⟩
  rw [exec_j, pageTarget_eq_append]
  rfl

end Sys2Proof.Machine

/-! # The end of a run (60_exceptions.md R120)

A step starts only while RUNNING, so a TERMINATED state has none, and a run that has reached one stays there for any
more steps. -/

namespace Sys2Proof.Machine

variable {s : State}

theorem step_ne_next_of_terminated (h : s.run = .terminated) (t : State) : step s ≠ .next t := by
  intro ht
  have hr : s.run = .running := (step_cases s ht).1
  rw [h] at hr
  cases hr

theorem runFor_of_terminated (k : Nat) (h : s.run = .terminated) : runFor k s = s :=
  runFor_of_no_next k (step_ne_next_of_terminated h)

/-- Settles O35: the steps after the `n`-th run from a TERMINATED state. -/
theorem terminatedStateIsFinal : Obligations.TerminatedStateIsFinal := by
  intro n m s h hnm
  obtain ⟨k, rfl⟩ := Nat.exists_eq_add_of_le hnm
  calc runFor (n + k) s
      = runFor k (runFor n s) := runFor_add n k s
    _ = runFor n s := runFor_of_terminated k h

end Sys2Proof.Machine

/-! # Encoding and decoding (30_encoding.md R52 to R55, R59)

A field of a word and a value placed in a word undo each other: the field at its own place reads the value placed there
and nothing of the values placed elsewhere, and a field put back in its place is the word under the field's mask. So the
canonical word of what a word decodes to is the word under the kind's mask. -/

namespace Sys2Proof

/-! ## A placed value read back -/

/-- The field at its own place reads the placed value. -/
theorem extractLsb'_placed {n lo : Nat} (v : BitVec n) (h : lo + n ≤ 16) : (placed v lo).extractLsb' lo n = v := by
  apply BitVec.eq_of_getLsbD_eq
  intro i hi
  rw [BitVec.getLsbD_extractLsb', getLsbD_placed v lo (lo + i) (by omega), Nat.add_sub_cancel_left]
  simp [hi]

/-- A field that shares no bit with the placed value reads 0. -/
theorem extractLsb'_placed_of_disjoint {n m lo start : Nat} (v : BitVec n) (h : start + m ≤ 16)
    (hd : start + m ≤ lo ∨ lo + n ≤ start) : (placed v lo).extractLsb' start m = 0 := by
  apply BitVec.eq_of_getLsbD_eq
  intro i hi
  rw [BitVec.getLsbD_extractLsb', getLsbD_placed v lo (start + i) (by omega)]
  rcases hd with hd | hd
  · simp [show ¬ lo ≤ start + i by omega]
  · simp [BitVec.getLsbD_of_ge v (start + i - lo) (by omega)]

theorem toFin_regBits (r : Reg) : (regBits r).toFin = r := rfl

section
variable (m : Mnemonic) (rd rs rt : Reg)

@[simp] theorem rdField_encodeR : rdField (encodeR m rd rs rt) = rd := by
  simp [rdField, encodeR, BitVec.extractLsb'_or, extractLsb'_placed, extractLsb'_placed_of_disjoint, toFin_regBits]

@[simp] theorem rsField_encodeR : rsField (encodeR m rd rs rt) = rs := by
  simp [rsField, encodeR, BitVec.extractLsb'_or, extractLsb'_placed, extractLsb'_placed_of_disjoint, toFin_regBits]

@[simp] theorem rtField_encodeR : rtField (encodeR m rd rs rt) = rt := by
  simp [rtField, encodeR, BitVec.extractLsb'_or, extractLsb'_placed, extractLsb'_placed_of_disjoint, toFin_regBits]

@[simp] theorem rdField_encodeI (n : BitVec 8) : rdField (encodeI m rd n) = rd := by
  simp [rdField, encodeI, BitVec.extractLsb'_or, extractLsb'_placed, extractLsb'_placed_of_disjoint, toFin_regBits]

@[simp] theorem imm8Field_encodeI (n : BitVec 8) : imm8Field (encodeI m rd n) = n := by
  simp [imm8Field, encodeI, BitVec.extractLsb'_or, extractLsb'_placed, extractLsb'_placed_of_disjoint]

@[simp] theorem imm11Field_encodeIX (n : BitVec 11) : imm11Field (encodeIX m n) = n := by
  simp [imm11Field, encodeIX, BitVec.extractLsb'_or, extractLsb'_placed, extractLsb'_placed_of_disjoint]

end

/-- The canonical word has the opcode of its kind. -/
theorem opcodeField_encodeWord (i : Instr) : opcodeField (encodeWord i) = i.mnemonic.opcode := by
  cases i <;> simp [encodeWord, Instr.mnemonic]

/-- The fields of the canonical word are the operands. -/
theorem decodeFields_encodeWord (i : Instr) : i.mnemonic.decodeFields (encodeWord i) = i := by
  cases i <;> simp [encodeWord, Instr.mnemonic, Mnemonic.decodeFields]

theorem decodeWord_encodeWord (i : Instr) : decodeWord (encodeWord i) = .ok i :=
  decodeWord_eq_ok.mpr ⟨(opcodeField_encodeWord i).symm, decodeFields_encodeWord i⟩

theorem decodeBytes_wordBytes {w : Word} {i : Instr} (h : decodeWord w = .ok i) (rest : List Byte) :
    decodeBytes (wordBytes w ++ rest) = .ok (i, rest) := by
  simp [wordBytes, decodeBytes, Machine.append_bytes, h]

/-- Settles O1: the opcode and every field of the canonical word read back. -/
theorem decodeOfEncodeGivesTheInstruction : Obligations.DecodeOfEncodeGivesTheInstruction := fun i =>
  ⟨decodeWord_encodeWord i, decodeBytes_wordBytes (decodeWord_encodeWord i)⟩

/-! ## A field put back in its place -/

/-- A field put back in its place is the word under the mask of the field. -/
theorem placed_extractLsb' (w : Word) (lo n : Nat) :
    placed (w.extractLsb' lo n) lo = w &&& placed (BitVec.allOnes n) lo := by
  apply BitVec.eq_of_getLsbD_eq
  intro k hk
  rw [BitVec.getLsbD_and, getLsbD_placed _ lo k hk, getLsbD_placed _ lo k hk, BitVec.getLsbD_extractLsb',
    BitVec.getLsbD_allOnes]
  by_cases h : lo ≤ k
  · rw [Nat.add_sub_cancel' h]
    simp [h, Bool.and_comm]
  · simp [h]

section
variable (w : Word)

theorem placed_opcodeField : placed (opcodeField w) 11 = w &&& 0xF800 := placed_extractLsb' w 11 5
theorem placed_rdField : placed (regBits (rdField w)) 8 = w &&& 0x0700 := placed_extractLsb' w 8 3
theorem placed_rsField : placed (regBits (rsField w)) 5 = w &&& 0x00E0 := placed_extractLsb' w 5 3
theorem placed_rtField : placed (regBits (rtField w)) 2 = w &&& 0x001C := placed_extractLsb' w 2 3
theorem placed_imm8Field : placed (imm8Field w) 0 = w &&& 0x00FF := placed_extractLsb' w 0 8
theorem placed_imm11Field : placed (imm11Field w) 0 = w &&& 0x07FF := placed_extractLsb' w 0 11

end

/-- The canonical word of the instruction a word gives is the word under the mask of the kind. -/
theorem encodeWord_decodeFields {w : Word} {m : Mnemonic} (h : m.opcode = opcodeField w) :
    encodeWord (m.decodeFields w) = w &&& m.usedMask := by
  have hzero : ∀ v : Word, v ||| 0 = v := fun _ => BitVec.or_zero
  cases m <;>
    simp only [Mnemonic.decodeFields, encodeWord, encodeR, encodeI, encodeIX, h, placed_opcodeField, placed_rdField,
      placed_rsField, placed_rtField, placed_imm8Field, placed_imm11Field, Laws.placed_regBits_zero, hzero,
      ← BitVec.and_or_distrib_left] <;>
    rfl

/-- The mask of every kind keeps the opcode. -/
theorem opcodeField_and_usedMask (w : Word) (m : Mnemonic) : opcodeField (w &&& m.usedMask) = opcodeField w := by
  have hmask : m.usedMask.extractLsb' 11 5 = BitVec.allOnes 5 := by cases m <;> rfl
  rw [opcodeField, BitVec.extractLsb'_and, hmask, BitVec.and_allOnes, ← opcodeField]

/-- Settles O2: if the used bits of `w` are those of `i`, then `w` has the opcode of `i`, so it is decoded to an
instruction with the canonical word of `i`, which is `i`. -/
theorem decodingIgnoresExactlyTheUnusedBits : Obligations.DecodingIgnoresExactlyTheUnusedBits := by
  intro w i
  constructor
  · intro h
    obtain ⟨hop, hi⟩ := decodeWord_eq_ok.mp h
    rw [← encodeWord_decodeFields hop, hi]
  · intro h
    have hop : i.mnemonic.opcode = opcodeField w := by
      rw [← opcodeField_encodeWord, ← h, opcodeField_and_usedMask]
    have henc : encodeWord (i.mnemonic.decodeFields w) = encodeWord i := (encodeWord_decodeFields hop).trans h
    have hi : decodeWord (encodeWord i) = .ok (i.mnemonic.decodeFields w) := henc ▸ decodeWord_encodeWord _
    rw [decodeWord_encodeWord] at hi
    exact decodeWord_eq_ok.mpr ⟨hop, (Except.ok.inj hi).symm⟩

/-- Settles O5: each of the ten words by evaluation. -/
theorem specWordsDecodeAsListed : Obligations.SpecWordsDecodeAsListed := by
  refine ⟨?_, ?_, ?_, ?_, ?_, ?_, ?_, ?_, ?_, ?_⟩ <;> rfl

end Sys2Proof

/-! # The step, said once (45_fetch_execute.md R99 to R101)

At an even `pc` an instruction is accounted, has its effect, and then ends the run for the reason of `State.endsWith` or
goes on at its target: `exec_of_even`. A step is one of three things: the end at an odd `pc`, a dispatched instruction,
a skipped unknown opcode: `step_eq_next`. -/

namespace Sys2Proof.Machine

variable {i : Instr} {s t : State}

/-! ## What a dispatched instruction does -/

/-- The one change that the handler of an instruction makes beside its accounting. -/
def State.effectOf (s : State) : Instr → Effect
  | .add rd rs rt => .write rd (trunc16 (u16 (s.reg rs) + u16 (s.reg rt)))
  | .sub rd rs rt => .write rd (trunc16 (u16 (s.reg rs) - u16 (s.reg rt)))
  | .and rd rs rt => .write rd (s.reg rs &&& s.reg rt)
  | .nor rd rs rt => .write rd (~~~(s.reg rs ||| s.reg rt))
  | .div rd rs rt => if s.reg rt = 0 then .nothing else .write rd (trunc16 (Int.tdiv (s16 (s.reg rs)) (s16 (s.reg rt))))
  | .mul rd rs rt => .write rd (trunc16 (s16 (s.reg rs) * s16 (s.reg rt)))
  | .mod rd rs rt => if s.reg rt = 0 then .nothing else .write rd (trunc16 (Int.tmod (s16 (s.reg rs)) (s16 (s.reg rt))))
  | .exp rd rs rt => .write rd (expResult (s.reg rs) (s.reg rt))
  | .lw rd rs => if isOdd (s.reg rs) then .nothing else .write rd (Memory.readWord s.dmem (s.reg rs))
  | .sw rs rt => if isOdd (s.reg rs) then .nothing else .store (s.reg rs) (s.reg rt)
  | .liz rd imm8 => .write rd (zeroExtended imm8)
  | .lis rd imm8 => .write rd (signExtended imm8)
  | .lui rd imm8 => .write rd (upperReplaced imm8 (s.reg rd))
  | .jalr rd _ => .write rd s.nextPc
  | .put rs => .output (s.reg rs)
  | .bp _ _ | .bn _ _ | .bx _ _ | .bz _ _ | .jr _ | .j _ | .halt => .nothing

/-- Where an instruction that does not end the run goes on. -/
def State.targetOf (s : State) : Instr → Word
  | .bp rd imm8 => if isPositive (s.reg rd) then branchTarget imm8 else s.nextPc
  | .bn rd imm8 => if isNegative (s.reg rd) then branchTarget imm8 else s.nextPc
  | .bx rd imm8 => if isNonZero (s.reg rd) then branchTarget imm8 else s.nextPc
  | .bz rd imm8 => if isZero (s.reg rd) then branchTarget imm8 else s.nextPc
  | .jr rs | .jalr _ rs => s.reg rs
  | .j imm11 => pageTarget s.pc imm11
  | .add _ _ _ | .sub _ _ _ | .and _ _ _ | .nor _ _ _ | .div _ _ _ | .mul _ _ _ | .mod _ _ _ | .exp _ _ _ => s.nextPc
  | .lw _ _ | .sw _ _ | .put _ | .liz _ _ | .lis _ _ | .lui _ _ | .halt => s.nextPc

/-- The report of an ending: every one but HALT's has one (45_fetch_execute.md R99). -/
def Reason.report (r : Reason) : List Event := if r = .halted then [] else [.diag (.fatal r)]

/-- The end of a run for a reason, with its report. -/
def State.endFor (s : State) (r : Reason) : State :=
  { s with run := .terminated, reason := r, events := s.events ++ r.report }

/-- How an instruction is left: the run ends for the reason, if there is one, or goes on at the target. -/
def State.proceed (s : State) : Option Reason → Word → State
  | some r, _ => s.endFor r
  | none, t => s.setPc t

/-- The state after the instruction `i` is dispatched at `s`. -/
def State.after (s : State) (i : Instr) : State :=
  ((s.accounted i).apply (s.effectOf i)).proceed (s.endsWith i) (s.targetOf i)

/-- HALT's ending has no report. -/
theorem endFor_halted (s : State) : s.endFor .halted = s.terminate .halted := by
  simp [State.endFor, State.terminate, Reason.report]

theorem after_of_ends {r : Reason} (h : s.endsWith i = some r) :
    s.after i = ((s.accounted i).apply (s.effectOf i)).endFor r := by
  rw [State.after, h, State.proceed]

theorem after_of_continues (h : s.endsWith i = none) :
    s.after i = ((s.accounted i).apply (s.effectOf i)).setPc (s.targetOf i) := by
  rw [State.after, h, State.proceed]

theorem exec_div_of_ne_zero (rd rs : Reg) {rt : Reg} (h : s.reg rt ≠ 0) :
    exec (.div rd rs rt) s = writeAndContinue .div rd (trunc16 (Int.tdiv (s16 (s.reg rs)) (s16 (s.reg rt)))) s :=
  if_neg (mt (isZeroDivisor_iff _).mp h)

theorem exec_mod_of_ne_zero (rd rs : Reg) {rt : Reg} (h : s.reg rt ≠ 0) :
    exec (.mod rd rs rt) s = writeAndContinue .mod rd (trunc16 (Int.tmod (s16 (s.reg rs)) (s16 (s.reg rt)))) s :=
  if_neg (mt (isZeroDivisor_iff _).mp h)

theorem exec_div_of_zero (rd rs : Reg) {rt : Reg} (h : s.reg rt = 0) :
    exec (.div rd rs rt) s = .next ((s.counted .div).abort .divideByZero) :=
  if_pos ((isZeroDivisor_iff _).mpr h)

theorem exec_mod_of_zero (rd rs : Reg) {rt : Reg} (h : s.reg rt = 0) :
    exec (.mod rd rs rt) s = .next ((s.counted .mod).abort .moduloByZero) :=
  if_pos ((isZeroDivisor_iff _).mpr h)

/-- A target that is no register's is even, so it is not the sentinel. -/
theorem targetOf_even (he : isOdd s.pc = false) (hjr : ∀ rs, i ≠ .jr rs) (hjalr : ∀ rd rs, i ≠ .jalr rd rs) :
    isOdd (s.targetOf i) = false := by
  have hnext := nextPc_even s he
  cases i with
  | jr rs => exact absurd rfl (hjr rs)
  | jalr rd rs => exact absurd rfl (hjalr rd rs)
  | j imm11 => exact pageTarget_even s.pc imm11
  | bp rd imm8 | bn rd imm8 | bx rd imm8 | bz rd imm8 =>
    simp only [State.targetOf]
    split
    · exact branchTarget_even imm8
    · exact hnext
  | _ => exact hnext

/-- What an instruction does at an even `pc`: `commit` of its outcome is the ending of `State.endsWith`, or the move to
its target. -/
theorem exec_of_even (i : Instr) (he : isOdd s.pc = false) : exec i s = .next (s.after i) := by
  have hnext : s.nextPc ≠ 0xFFFF := ne_sentinel_of_even (nextPc_even s he)
  have htarget : (∀ rs, i ≠ .jr rs) → (∀ rd rs, i ≠ .jalr rd rs) → s.targetOf i ≠ 0xFFFF :=
    fun hjr hjalr => ne_sentinel_of_even (targetOf_even he hjr hjalr)
  cases i with
  | div rd rs rt | mod rd rs rt =>
    by_cases hz : s.reg rt = 0
    · simp only [exec_div_of_zero _ _ hz, exec_mod_of_zero _ _ hz, State.after, State.endsWith, State.effectOf, hz,
        if_true]
      rfl
    · simp only [exec_div_of_ne_zero _ _ hz, exec_mod_of_ne_zero _ _ hz, State.after, State.endsWith, State.effectOf,
        hz, if_false]
      exact writeAndContinue_next s _ rd _ he
  | lw rd rs | sw rs rt =>
    cases ho : isOdd (s.reg rs) with
    | true =>
      simp only [exec_lw_of_odd _ ho, exec_sw_of_odd _ ho, State.after, State.endsWith, State.effectOf, ho, if_true]
      rfl
    | false =>
      simp only [exec_lw_of_even _ ho, exec_sw_of_even _ ho, commit_continueAt _ hnext, State.after, State.endsWith,
        State.effectOf, ho, Bool.false_eq_true, if_false]
      rfl
  | jr rs | jalr rd rs =>
    by_cases hr : s.reg rs = 0xFFFF
    · simp only [exec, execJr, execJalr, complete, hr, commit_sentinel, State.after, State.endsWith, if_true]
      rfl
    · simp only [exec, execJr, execJalr, complete, commit_continueAt _ hr, State.after, State.endsWith, hr, if_false]
      rfl
  | halt =>
    rw [after_of_ends rfl, endFor_halted]
    rfl
  | _ => exact (complete_next _).mpr (commit_continueAt _ (htarget nofun nofun)).symm

/-! ## What is left unchanged -/

section
variable (s : State) (i : Instr) (e : Effect)

@[simp] theorem accounted_pc : (s.accounted i).pc = s.pc := rfl
@[simp] theorem accounted_lat : (s.accounted i).lat = s.lat := rfl
@[simp] theorem accounted_run : (s.accounted i).run = s.run := rfl
@[simp] theorem accounted_reason : (s.accounted i).reason = s.reason := rfl
@[simp] theorem accounted_events : (s.accounted i).events = s.events ++ [.trace i.mnemonic] := rfl

@[simp] theorem apply_pc : (s.apply e).pc = s.pc := by cases e <;> rfl
@[simp] theorem apply_counter (k : Mnemonic) : (s.apply e).counter k = s.counter k := by cases e <;> rfl
@[simp] theorem apply_lat : (s.apply e).lat = s.lat := by cases e <;> rfl
@[simp] theorem apply_run : (s.apply e).run = s.run := by cases e <;> rfl
@[simp] theorem apply_reason : (s.apply e).reason = s.reason := by cases e <;> rfl

@[simp] theorem proceed_imem (r : Option Reason) (t : Word) : (s.proceed r t).imem = s.imem := by cases r <;> rfl
@[simp] theorem proceed_dmem (r : Option Reason) (t : Word) : (s.proceed r t).dmem = s.dmem := by cases r <;> rfl
@[simp] theorem proceed_lat (r : Option Reason) (t : Word) : (s.proceed r t).lat = s.lat := by cases r <;> rfl
@[simp] theorem proceed_counter (r : Option Reason) (t : Word) (k : Mnemonic) :
    (s.proceed r t).counter k = s.counter k := by cases r <;> rfl

@[simp] theorem after_counter (k : Mnemonic) : (s.after i).counter k = (s.accounted i).counter k := by
  simp [State.after]

@[simp] theorem after_lat : (s.after i).lat = s.lat := by
  simp [State.after]

end

theorem after_pc_of_ends {r : Reason} (h : s.endsWith i = some r) : (s.after i).pc = s.pc := by
  simp [after_of_ends h, State.endFor]

theorem after_run_of_ends {r : Reason} (h : s.endsWith i = some r) : (s.after i).run = .terminated := by
  simp [after_of_ends h, State.endFor]

theorem after_reason_of_ends {r : Reason} (h : s.endsWith i = some r) : (s.after i).reason = r := by
  simp [after_of_ends h, State.endFor]

theorem after_pc_of_continues (h : s.endsWith i = none) : (s.after i).pc = s.targetOf i := by
  simp [after_of_continues h]

theorem after_run_of_continues (h : s.endsWith i = none) : (s.after i).run = s.run := by
  simp [after_of_continues h]

theorem after_reason_of_continues (h : s.endsWith i = none) : (s.after i).reason = s.reason := by
  simp [after_of_continues h]

section
variable (s : State) (e : DecodeError)

@[simp] theorem skipUnknown_pc : (skipUnknown s e).pc = s.nextPc := by cases e; rfl
@[simp] theorem skipUnknown_run : (skipUnknown s e).run = s.run := by cases e; rfl

end

/-! ## The step -/

theorem dispatches_unique {j : Instr} (hi : s.Dispatches i) (hj : s.Dispatches j) : i = j := by
  obtain ⟨-, -, hi⟩ := hi
  obtain ⟨-, -, hj⟩ := hj
  exact Except.ok.inj (hi.symm.trans hj)

theorem not_dispatches_of_odd (h : isOdd s.pc = true) (i : Instr) : ¬ s.Dispatches i := by
  rintro ⟨-, he, -⟩
  simp [h] at he

theorem not_dispatches_of_undecoded {e : DecodeError} (h : decodeWord s.wordAtPc = .error e) (i : Instr) :
    ¬ s.Dispatches i := by
  rintro ⟨-, -, hi⟩
  simp [h] at hi

theorem step_of_odd (hr : s.run = .running) (ho : isOdd s.pc = true) : step s = .next (endMisaligned s) := by
  simp [step, fetch, hr, ho]

theorem step_of_dispatches_eq_after (h : s.Dispatches i) : step s = .next (s.after i) :=
  (step_of_dispatches h).trans (exec_of_even i h.2.1)

/-- Everything a step that gives a next state can do (45_fetch_execute.md R101). -/
theorem step_eq_next (h : step s = .next t) :
    s.run = .running ∧
    ((isOdd s.pc = true ∧ t = endMisaligned s) ∨
     (∃ i, s.Dispatches i ∧ t = s.after i) ∨
     (isOdd s.pc = false ∧ ∃ op, decodeWord s.wordAtPc = .error (.unknownOpcode op) ∧
       t = skipUnknown s (.unknownOpcode op))) := by
  obtain ⟨hr, hodd | ⟨he, i, hi, ht⟩ | ⟨he, ⟨op⟩, hop, ht⟩⟩ := step_cases s h
  · exact ⟨hr, .inl hodd⟩
  · rw [exec_of_even i he] at ht
    exact ⟨hr, .inr (.inl ⟨i, ⟨hr, he, hi⟩, by simpa using ht.symm⟩)⟩
  · exact ⟨hr, .inr (.inr ⟨he, op, hop, ht⟩)⟩

theorem exists_step_of_running (hr : s.run = .running) : ∃ t, step s = .next t := by
  cases ho : isOdd s.pc with
  | true => exact ⟨_, step_of_odd hr ho⟩
  | false =>
    cases hd : decodeWord s.wordAtPc with
    | ok i => exact ⟨_, step_of_dispatches_eq_after ⟨hr, ho, hd⟩⟩
    | error e => exact ⟨_, step_of_undecoded hr ho hd⟩

/-- Settles O8: each of the three things a step can be gives a next state. -/
theorem runningMachineAlwaysSteps : Obligations.RunningMachineAlwaysSteps := fun _ => exists_step_of_running

/-- Settles O6: `step` tests what `State.Dispatches` says, then runs the instruction. -/
theorem stepRunsTheDecodedInstruction : Obligations.StepRunsTheDecodedInstruction := fun _ _ => step_of_dispatches

/-- Settles O7: a RUNNING state steps. -/
theorem onlyTerminatedHasNoStep : Obligations.OnlyTerminatedHasNoStep := by
  refine fun s => ⟨fun h => ?_, fun h => by simp [step, h]⟩
  cases hr : s.run with
  | terminated => rfl
  | running =>
    obtain ⟨t, ht⟩ := exists_step_of_running hr
    rw [ht] at h
    cases h

/-- Settles O9: the step is `endMisaligned`. -/
theorem oddFetchEndsTheRun : Obligations.OddFetchEndsTheRun := fun _ => step_of_odd

/-- Settles O10: the step is `skipUnknown`. -/
theorem unknownOpcodeIsReportedAndSkipped : Obligations.UnknownOpcodeIsReportedAndSkipped :=
  fun _ _ => step_of_undecoded

/-! ## `pc` after a step (10_state.md R20 to R22) -/

theorem nextPc_toNat (s : State) : s.nextPc.toNat = (s.pc.toNat + 2) % 65536 := BitVec.toNat_add s.pc 2

theorem targetOf_of_sequential (h : transfersControl i = false) : s.targetOf i = s.nextPc := by
  cases i with
  | bp | bn | bx | bz | jr | jalr | j | halt => cases h
  | _ => rfl

/-- Settles O28: an instruction that transfers no control has the sequential target, and so has a skipped word. -/
theorem otherInstructionsAdvanceByTwo : Obligations.OtherInstructionsAdvanceByTwo := by
  refine ⟨fun s i he hseq hend => ⟨_, exec_of_even i he, ?_⟩, fun s e hr he hd => ⟨_, step_of_undecoded hr he hd, ?_⟩⟩
  · rw [after_pc_of_continues hend, targetOf_of_sequential hseq, nextPc_toNat]
  · rw [skipUnknown_pc, nextPc_toNat]

/-- An odd target is a register's. -/
theorem register_of_odd_targetOf (he : isOdd s.pc = false) (ho : isOdd (s.targetOf i) = true) :
    ∃ rs, s.reg rs = s.targetOf i ∧ (i = .jr rs ∨ ∃ rd, i = .jalr rd rs) := by
  by_contra hno
  have hjr : ∀ rs, i ≠ .jr rs := by rintro rs rfl; exact hno ⟨rs, rfl, .inl rfl⟩
  have hjalr : ∀ rd rs, i ≠ .jalr rd rs := by rintro rd rs rfl; exact hno ⟨rs, rfl, .inr ⟨rd, rfl⟩⟩
  simp [targetOf_even he hjr hjalr] at ho

/-- Settles O29: a step that makes `pc` odd dispatched an instruction that goes on at an odd target. -/
theorem onlyRegisterJumpsMakeThePcOdd : Obligations.OnlyRegisterJumpsMakeThePcOdd := by
  intro s t h he ho
  obtain ⟨-, ⟨hodd, -⟩ | ⟨i, hi, rfl⟩ | ⟨-, op, -, rfl⟩⟩ := step_eq_next h
  · simp [he] at hodd
  · cases hend : s.endsWith i with
    | some r => simp [after_pc_of_ends hend, he] at ho
    | none =>
      rw [after_pc_of_continues hend] at ho ⊢
      obtain ⟨rs, hrs, hjr | ⟨rd, hjalr⟩⟩ := register_of_odd_targetOf he ho
      · exact ⟨rs, hrs, .inl (hjr ▸ hi)⟩
      · exact ⟨rs, hrs, .inr ⟨rd, hjalr ▸ hi⟩⟩
  · simp [nextPc_even s he] at ho

/-! ## The end of a run (45_fetch_execute.md R100) -/

/-- Settles O33: a step ends the run at an odd `pc`, or when it dispatches an instruction that ends it. -/
theorem runEndsExactlyOnHaltOrFatalCondition : Obligations.RunEndsExactlyOnHaltOrFatalCondition := by
  intro s t r h
  obtain ⟨hr, ⟨ho, rfl⟩ | ⟨i, hi, rfl⟩ | ⟨he, op, hop, rfl⟩⟩ := step_eq_next h
  · have hno := not_dispatches_of_odd ho
    simp [ho, hno, eq_comm]
  · have hi' : (∃ j, s.Dispatches j ∧ s.endsWith j = some r) ↔ s.endsWith i = some r :=
      ⟨fun ⟨j, hj, hjr⟩ => dispatches_unique hj hi ▸ hjr, fun hir => ⟨i, hi, hir⟩⟩
    rw [hi']
    obtain ⟨-, he, -⟩ := hi
    cases hend : s.endsWith i with
    | some r' => simp [after_run_of_ends hend, after_reason_of_ends hend, he]
    | none => simp [after_run_of_continues hend, hr, he]
  · have hno := not_dispatches_of_undecoded hop
    simp [hr, he, hno]

/-- Settles O34: the end at an odd `pc` and the end at an instruction keep `pc`; any other step goes on. -/
theorem endOfRunKeepsThePc : Obligations.EndOfRunKeepsThePc := by
  intro s t h ht
  obtain ⟨hr, ⟨-, rfl⟩ | ⟨i, -, rfl⟩ | ⟨-, op, -, rfl⟩⟩ := step_eq_next h
  · rfl
  · cases hend : s.endsWith i with
    | some r => exact after_pc_of_ends hend
    | none =>
      simp [after_run_of_continues hend, hr] at ht
  · simp [hr] at ht

end Sys2Proof.Machine

/-! # The instructions one by one

Truncation to 16 bits respects sum, difference and product, so the wrapped results of 40_arithmetic.md are those of the
16-bit operations, and the repeated squaring of EXP is the truncated power. A fatal condition leaves the counted state
and one report: `exec_of_fatal`. -/

namespace Sys2Proof.Machine

variable {s : State}

/-! ## Truncation (00_scope.md R10) -/

@[simp] theorem trunc16_s16 (v : Word) : trunc16 (s16 v) = v := BitVec.ofInt_toInt

@[simp] theorem trunc16_u16 (v : Word) : trunc16 (u16 v) = v :=
  (BitVec.ofInt_natCast 16 v.toNat).trans (BitVec.ofNat_toNat 16 v |>.trans (BitVec.setWidth_eq v))

@[simp] theorem trunc16_add (m n : Int) : trunc16 (m + n) = trunc16 m + trunc16 n := BitVec.ofInt_add m n

@[simp] theorem trunc16_mul (m n : Int) : trunc16 (m * n) = trunc16 m * trunc16 n := BitVec.ofInt_mul m n

@[simp] theorem trunc16_sub (m n : Int) : trunc16 (m - n) = trunc16 m - trunc16 n := by
  have hneg : trunc16 (-n) = -trunc16 n := BitVec.ofInt_neg
  rw [Int.sub_eq_add_neg, trunc16_add, hneg, BitVec.sub_eq_add_neg]

/-! ## ADD, SUB and MUL (40_arithmetic.md R66, R67, R71) -/

/-- Settles O11: the truncated result is the result of the truncated operands. -/
theorem addSubMulWriteTheWrappedResult : Obligations.AddSubMulWriteTheWrappedResult := by
  intro s rd rs rt h
  simp only [exec, execAdd, execSub, execMul, trunc16_add, trunc16_sub, trunc16_mul, trunc16_u16, trunc16_s16]
  exact ⟨writeAndContinue_eq_withRetired .add rd _ h, writeAndContinue_eq_withRetired .sub rd _ h,
    writeAndContinue_eq_withRetired .mul rd _ h⟩

/-! ## DIV and MOD (40_arithmetic.md R70, R72) -/

/-- The truncated division leaves a remainder of the dividend's sign (40_arithmetic.md R72). -/
theorem tmod_neg_iff {a b : Int} (h : a.tmod b ≠ 0) : a.tmod b < 0 ↔ a < 0 := by
  have hb : ¬ b ∣ a := mt Int.tmod_eq_zero_of_dvd h
  rw [← Int.sign_eq_neg_one_iff_neg, ← Int.sign_eq_neg_one_iff_neg, Int.sign_tmod, if_neg hb]

theorem natAbs_tmod_lt (a : Int) {b : Int} (h : b ≠ 0) : (a.tmod b).natAbs < b.natAbs := by
  rw [Int.natAbs_tmod]
  exact Nat.mod_lt _ (Int.natAbs_pos.mpr h)

/-- Settles O13: the quotient and the remainder are those of the division rounded toward zero. -/
theorem divModWriteQuotientAndRemainder : Obligations.DivModWriteQuotientAndRemainder := by
  intro s rd rs rt h hz
  have hb : s16 (s.reg rt) ≠ 0 := fun e => hz (BitVec.toInt_inj.mp e)
  exact ⟨Int.tdiv (s16 (s.reg rs)) (s16 (s.reg rt)), Int.tmod (s16 (s.reg rs)) (s16 (s.reg rt)),
    (Int.tdiv_mul_add_tmod _ _).symm, natAbs_tmod_lt _ hb, tmod_neg_iff,
    (exec_div_of_ne_zero rd rs hz).trans (writeAndContinue_eq_withRetired .div rd _ h),
    (exec_mod_of_ne_zero rd rs hz).trans (writeAndContinue_eq_withRetired .mod rd _ h)⟩

/-! ## EXP (40_arithmetic.md R73) -/

/-- One step of raising to a power by squaring. -/
theorem pow_eq_mul_sq_pow_half (z : Int) (n : Nat) : z ^ n = (if n % 2 = 1 then z else 1) * (z * z) ^ (n / 2) := by
  have hn : n = n % 2 + 2 * (n / 2) := (Nat.mod_add_div n 2).symm
  rw [← pow_two, ← pow_mul]
  rcases Nat.mod_two_eq_zero_or_one n with h | h <;> simp only [h] at hn ⊢
  · rw [if_neg (by decide), one_mul, ← Nat.zero_add (2 * (n / 2)), ← hn]
  · rw [if_pos True.intro, ← pow_succ', Nat.add_comm, ← hn]

/-- Repeated squaring in 16 bits gives the truncated power. -/
theorem powWord_trunc16 (fuel : Nat) (z : Int) (n : Nat) (h : n < 2 ^ fuel) :
    powWord fuel (trunc16 z) n = trunc16 (z ^ n) := by
  induction fuel generalizing z n with
  | zero =>
    obtain rfl : n = 0 := by omega
    exact (congrArg trunc16 (pow_zero z)).symm
  | succ fuel ih =>
    have hhalf : n / 2 < 2 ^ fuel := by omega
    rw [powWord, ← trunc16_mul, ih _ _ hhalf, pow_eq_mul_sq_pow_half z n, trunc16_mul]
    split <;> rfl

/-- Settles O14: an exponent of 0 or more is below 2 ^ 15. -/
theorem expWritesTheTruncatedPower : Obligations.ExpWritesTheTruncatedPower := by
  intro s rd rs rt h hn
  have hlt : (s.reg rt).toNat < 2 ^ 15 := by
    have := BitVec.toInt_pos_iff.mp hn
    omega
  have hpow : expResult (s.reg rs) (s.reg rt) = trunc16 (s16 (s.reg rs) ^ (s.reg rt).toNat) := by
    rw [expResult, if_pos (show 0 ≤ s16 (s.reg rt) from hn), ← powWord_trunc16 15 _ _ hlt, trunc16_s16]
  rw [exec, execExp, hpow]
  exact writeAndContinue_eq_withRetired .exp rd _ h

/-- Settles O15: a negative exponent takes the branch of the free value. -/
theorem expOfNegativeExponentWritesTheFreeValue : Obligations.ExpOfNegativeExponentWritesTheFreeValue := by
  intro s rd rs rt h hn
  rw [exec, execExp, expResult, if_neg (show ¬ 0 ≤ s16 (s.reg rt) from not_le.mpr hn)]
  exact writeAndContinue_eq_withRetired .exp rd _ h

/-- Rounding toward zero gives 0 strictly between -1 and 1. -/
theorem truncated_eq_zero {x : ℚ} (h : |x| < 1) : (if 0 ≤ x then ⌊x⌋ else ⌈x⌉) = 0 := by
  obtain ⟨hlo, hhi⟩ := abs_lt.mp h
  split
  case isTrue h0 => exact Int.floor_eq_zero_iff.mpr ⟨h0, hhi⟩
  case isFalse h0 => exact Int.ceil_eq_zero_iff.mpr ⟨hlo, (not_le.mp h0).le⟩

/-- A negative power of an integer other than 1 and -1 lies strictly between -1 and 1. -/
theorem abs_zpow_lt_one {a n : Int} (hn : n < 0) (h1 : a ≠ 1) (h2 : a ≠ -1) : |(a : ℚ) ^ n| < 1 := by
  by_cases h0 : a = 0
  · simp [h0, zero_zpow n hn.ne]
  · have ha : 1 < |a| := lt_abs.mpr (by omega)
    rw [abs_zpow]
    exact zpow_lt_one_of_neg₀ (by exact_mod_cast ha) hn

/-- Settles O16: the power is 1 for the base 1, has the sign of the exponent's parity for -1, and rounds to 0 for every
other base. -/
theorem referenceExpNegRoundsTheRationalPower : Obligations.ReferenceExpNegRoundsTheRationalPower := by
  intro a n hn
  by_cases h1 : a = 1
  · simp [expNegReference, h1]
  · by_cases h2 : a = -1
    · rcases Int.even_or_odd n with hp | hp
      · simp [expNegReference, h2, hp.neg_one_zpow, Int.even_iff.mp hp]
      · norm_num [expNegReference, h2, hp.neg_one_zpow, Int.odd_iff.mp hp]
        rfl
    · rw [truncated_eq_zero (abs_zpow_lt_one hn h1 h2), expNegReference, if_neg h1, if_neg h2]
      rfl

/-! ## LW and SW (41_load_store.md) -/

/-- Settles O19: the word at an even address is its two bytes. -/
theorem lwLoadsTheBigEndianWord : Obligations.LwLoadsTheBigEndianWord := by
  intro s rd rs h ha
  rw [← succ_toNat_of_even ha, exec_lw_of_even rd ha]
  exact writeAndContinue_eq_withRetired .lw rd _ h

/-- Settles O20: the memory is the one with the word written. -/
theorem swStoresTheTwoBytesAndNoOther : Obligations.SwStoresTheTwoBytesAndNoOther := by
  intro s rs rt h ha
  rw [← succ_toNat_of_even ha]
  have hne := succ_toNat_ne (dataAddress s rs)
  refine ⟨Memory.writeWord s.dmem (dataAddress s rs) (s.reg rt), ?_, ?_, ?_, fun a h0 h1 => ?_⟩
  · rw [exec_sw_of_even rt ha, commit_continueAt _ (ne_sentinel_of_even (nextPc_even s h))]
    rfl
  · rw [read_writeWord, if_neg hne, if_pos rfl]
  · rw [read_writeWord, if_pos rfl]
  · rw [read_writeWord, if_neg h1.symm, if_neg h0.symm]

/-! ## JR and JALR (43_control_transfer.md R87, R88) -/

/-- Settles O26: the target was read before the link is written. -/
theorem registerJumpsGoToTheOldValue : Obligations.RegisterJumpsGoToTheOldValue := by
  intro s rd rs h
  rw [exec, execJr, exec, execJalr, complete, complete, commit_continueAt _ h, commit_continueAt _ h]
  exact ⟨rfl, rfl⟩

/-- Counting an instruction and aborting the run is what `State.AbortsAt` says. -/
theorem abortsAt_counted_abort (s : State) (k : Mnemonic) (r : Reason) : s.AbortsAt k r ((s.counted k).abort r) :=
  ⟨_, rfl, by simp [puts], by simp [traces], by simp [diags]⟩

/-- Settles O27: JR aborts in the counted state, JALR in the one with the link written. -/
theorem jumpToTheSentinelEndsTheRun : Obligations.JumpToTheSentinelEndsTheRun := by
  intro s rd rs h
  refine ⟨⟨(s.counted .jr).abort .sentinelTarget, ?_, abortsAt_counted_abort s _ _⟩,
    ⟨((s.setReg rd s.nextPc).counted .jalr).abort .sentinelTarget, ?_, abortsAt_counted_abort _ _ _⟩⟩
  · rw [exec, execJr, complete, h, commit_sentinel]
  · rw [exec, execJalr, complete, h, commit_sentinel]
    rfl

/-! ## HALT and PUT (44_system.md R91, R92) -/

/-- Settles O30: HALT's outcome is committed as the end of the run. -/
theorem haltCompletesTheRun : Obligations.HaltCompletesTheRun := fun _ => rfl

/-- Settles O31: the trace and the value are the two new events. -/
theorem putOutputsTheRegister : Obligations.PutOutputsTheRegister := by
  intro s rs h
  refine ⟨((s.counted .put).emit (.put (s.reg rs))).events, ?_, ?_, ?_, ?_⟩
  · rw [exec, execPut, complete, commit_continueAt _ (ne_sentinel_of_even (nextPc_even s h))]
    rfl
  · simp [puts]
  · simp [traces]
  · simp [diags]

/-! ## The fatal conditions (60_exceptions.md R105, R106) -/

/-- A fatal condition, at any `pc`: the instruction is counted and the run aborted. -/
theorem exec_of_fatal {i : Instr} {r : Reason} (h : s.endsWith i = some r) (hh : r ≠ .halted)
    (hs : r ≠ .sentinelTarget) : exec i s = .next ((s.counted i.mnemonic).abort r) := by
  cases i with
  | div rd rs rt =>
    obtain ⟨hz, rfl⟩ : s.reg rt = 0 ∧ .divideByZero = r := by simpa [State.endsWith] using h
    exact exec_div_of_zero rd rs hz
  | mod rd rs rt =>
    obtain ⟨hz, rfl⟩ : s.reg rt = 0 ∧ .moduloByZero = r := by simpa [State.endsWith] using h
    exact exec_mod_of_zero rd rs hz
  | lw rd rs =>
    obtain ⟨ho, rfl⟩ : isOdd (s.reg rs) = true ∧ .unalignedAccess = r := by simpa [State.endsWith] using h
    exact exec_lw_of_odd rd ho
  | sw rs rt =>
    obtain ⟨ho, rfl⟩ : isOdd (s.reg rs) = true ∧ .unalignedAccess = r := by simpa [State.endsWith] using h
    exact exec_sw_of_odd rt ho
  | jr | jalr | halt => simp [State.endsWith, hh.symm, hs.symm] at h
  | _ => cases h

/-- Settles O32: each of the four fatal conditions aborts in the counted state. -/
theorem fatalConditionLeavesRegistersAndMemory : Obligations.FatalConditionLeavesRegistersAndMemory :=
  fun s i r h hh hs => ⟨_, exec_of_fatal h hh hs, abortsAt_counted_abort s i.mnemonic r⟩

end Sys2Proof.Machine

/-! # Events and books (10_state.md R25 to R28, R32)

The events, the counters, the latency table and the reason are written and never read back: what an instruction does
depends on the registers, `pc` and data memory alone (`effectOf_congr` and its like), and the new events are a list that
nothing of the books enters (`State.newEvents`). -/

namespace Sys2Proof.Machine

variable {i : Instr} {s t : State}

/-! ## The new events of a dispatched instruction -/

/-- The event of an effect: a value output. -/
def Effect.events : Effect → List Event
  | .output v => [.put v]
  | .nothing | .write _ _ | .store _ _ => []

/-- The events of a dispatched instruction: its trace, the value it outputs, the report of its ending. -/
def State.newEvents (s : State) (i : Instr) : List Event :=
  .trace i.mnemonic :: ((s.effectOf i).events ++ (s.endsWith i).elim [] Reason.report)

@[simp] theorem apply_events (s : State) (e : Effect) : (s.apply e).events = s.events ++ e.events := by
  cases e <;> simp [State.apply, Effect.events]

@[simp] theorem after_events (s : State) (i : Instr) : (s.after i).events = s.events ++ s.newEvents i := by
  cases h : s.endsWith i with
  | some r => simp [after_of_ends h, State.newEvents, State.endFor, h]
  | none => simp [after_of_continues h, State.newEvents, h]

theorem mem_report (e : Event) (r : Reason) : e ∈ r.report ↔ r ≠ .halted ∧ e = .diag (.fatal r) := by
  by_cases h : r = .halted <;> simp [Reason.report, h]

theorem mem_effect_events (x : Event) (e : Effect) : x ∈ e.events ↔ ∃ v, e = .output v ∧ x = .put v := by
  cases e <;> simp [Effect.events]

/-- Only PUT outputs, the value of its register (10_state.md R32). -/
theorem effectOf_eq_output (v : Word) : s.effectOf i = .output v ↔ ∃ rs, i = .put rs ∧ s.reg rs = v := by
  cases i with
  | div | mod | lw | sw => simp only [State.effectOf]; split <;> simp
  | _ => simp [State.effectOf]

theorem mem_newEvents (x : Event) :
    x ∈ s.newEvents i ↔
      x = .trace i.mnemonic ∨ (∃ rs, i = .put rs ∧ x = .put (s.reg rs)) ∨
        ∃ r, s.endsWith i = some r ∧ r ≠ .halted ∧ x = .diag (.fatal r) := by
  have hput : x ∈ (s.effectOf i).events ↔ ∃ rs, i = .put rs ∧ x = .put (s.reg rs) := by
    simp only [mem_effect_events, effectOf_eq_output]
    exact ⟨fun ⟨v, ⟨rs, hi, hv⟩, hx⟩ => ⟨rs, hi, hv ▸ hx⟩, fun ⟨rs, hi, hx⟩ => ⟨_, ⟨rs, hi, rfl⟩, hx⟩⟩
  have hreport : x ∈ (s.endsWith i).elim [] Reason.report ↔
      ∃ r, s.endsWith i = some r ∧ r ≠ .halted ∧ x = .diag (.fatal r) := by
    cases s.endsWith i <;> simp [mem_report]
  rw [State.newEvents, List.mem_cons, List.mem_append, hput, hreport]

/-! ## What an instruction depends on -/

section
variable {s' : State} (hx : s'.x = s.x) (hpc : s'.pc = s.pc) (hdmem : s'.dmem = s.dmem) (i : Instr)
include hx

theorem reg_congr (r : Reg) : s'.reg r = s.reg r := by
  rw [State.reg, hx, State.reg]

theorem endsWith_congr : s'.endsWith i = s.endsWith i := by
  have hreg := reg_congr hx
  cases i <;> simp only [State.endsWith, hreg]

include hpc

theorem targetOf_congr : s'.targetOf i = s.targetOf i := by
  have hreg := reg_congr hx
  cases i <;> simp only [State.targetOf, State.nextPc, hreg, hpc]

include hdmem

theorem effectOf_congr : s'.effectOf i = s.effectOf i := by
  have hreg := reg_congr hx
  cases i <;> simp only [State.effectOf, State.nextPc, hreg, hpc, hdmem]

theorem newEvents_congr : s'.newEvents i = s.newEvents i := by
  rw [State.newEvents, effectOf_congr hx hpc hdmem, endsWith_congr hx, State.newEvents]

/-- What an instruction does is the same at every state with the same registers, `pc` and data memory. -/
theorem after_congr :
    s'.after i = ((s'.accounted i).apply (s.effectOf i)).proceed (s.endsWith i) (s.targetOf i) := by
  rw [State.after, effectOf_congr hx hpc hdmem, endsWith_congr hx, targetOf_congr hx hpc]

end

/-- Other events before an instruction are other events after it and nothing else. -/
theorem after_withEvents (s : State) (i : Instr) (es : List Event) :
    State.after { s with events := es } i = { s.after i with events := es ++ s.newEvents i } := by
  have hnew : State.newEvents { s with events := es } i = s.newEvents i := newEvents_congr rfl rfl rfl i
  have hevents : es ++ s.newEvents i = (State.after { s with events := es } i).events := by rw [after_events, hnew]
  rw [hevents, after_congr (s := s) (s' := { s with events := es }) rfl rfl rfl i, State.after]
  cases s.endsWith i <;> cases s.effectOf i <;> rfl

/-- Another latency table before an instruction is the same one after it and nothing else. -/
theorem after_withLat (s : State) (i : Instr) (l : Latencies) :
    State.after { s with lat := l } i = { s.after i with lat := l } := by
  rw [after_congr (s := s) (s' := { s with lat := l }) rfl rfl rfl i, State.after]
  cases s.endsWith i <;> cases s.effectOf i <;> rfl

/-- Other counters and another reason before an instruction are books after it and nothing else. -/
theorem after_withBooks (s : State) (i : Instr) (c : Vector Nat 22) (r : Reason) :
    ∃ c' r', State.after { s with count := c, reason := r } i = { s.after i with count := c', reason := r' } := by
  rw [after_congr (s := s) (s' := { s with count := c, reason := r }) rfl rfl rfl i, State.after]
  cases s.endsWith i <;> cases s.effectOf i <;> exact ⟨_, _, rfl⟩

/-- Another latency table changes nothing of a step (10_state.md R28). -/
theorem step_withLat (h : step s = .next t) (l : Latencies) :
    step { s with lat := l } = .next { t with lat := l } := by
  obtain ⟨hr, ⟨ho, rfl⟩ | ⟨i, hi, rfl⟩ | ⟨he, op, hop, rfl⟩⟩ := step_eq_next h
  · exact step_of_odd hr ho
  · rw [step_of_dispatches_eq_after (s := { s with lat := l }) hi, after_withLat]
  · exact step_of_undecoded hr he hop

/-- Settles O39: the latency table is put apart by `step_withLat`, the counters and the reason by a case split on the
step. -/
theorem countersAndLatenciesNeverSteer : Obligations.CountersAndLatenciesNeverSteer := by
  intro s t c l r h
  suffices hbooks : ∃ c' r', step { s with count := c, reason := r } = .next { t with count := c', reason := r' } by
    obtain ⟨c', r', hstep⟩ := hbooks
    exact ⟨c', r', step_withLat hstep l⟩
  obtain ⟨hr, ⟨ho, rfl⟩ | ⟨i, hi, rfl⟩ | ⟨he, op, hop, rfl⟩⟩ := step_eq_next h
  · exact ⟨_, _, step_of_odd hr ho⟩
  · obtain ⟨c', r', hafter⟩ := after_withBooks s i c r
    exact ⟨c', r', hafter ▸ step_of_dispatches_eq_after hi⟩
  · exact ⟨_, _, step_of_undecoded hr he hop⟩

/-- A step that dispatches nothing has one new event, a diagnostic: no value and no trace. -/
theorem events_of_report {d : Diag} (hd : ∀ i, ¬ s.Dispatches i) :
    (∀ v, Event.put v ∈ [Event.diag d] ↔ ∃ rs, s.Dispatches (.put rs) ∧ s.reg rs = v) ∧
      ∀ m, Event.trace m ∈ [Event.diag d] ↔ ∃ i, s.Dispatches i ∧ i.mnemonic = m :=
  ⟨fun _ => by simp [hd], fun _ => by simp [hd]⟩

/-- The new events of a dispatched instruction are those the statement of R32 names. -/
theorem events_of_dispatch (hi : s.Dispatches i) :
    (∀ v, Event.put v ∈ s.newEvents i ↔ ∃ rs, s.Dispatches (.put rs) ∧ s.reg rs = v) ∧
    (∀ m, Event.trace m ∈ s.newEvents i ↔ ∃ j, s.Dispatches j ∧ j.mnemonic = m) ∧
    ((∃ d, Event.diag d ∈ s.newEvents i) ↔
      isOdd s.pc = true ∨ (∃ e, decodeWord s.wordAtPc = .error e) ∨
        ∃ j r, s.Dispatches j ∧ s.endsWith j = some r ∧ r ≠ .halted) := by
  have hj : ∀ j, s.Dispatches j ↔ i = j := fun j => ⟨dispatches_unique hi, fun h => h ▸ hi⟩
  obtain ⟨-, he, hd⟩ := hi
  refine ⟨fun v => ?_, fun m => ?_, ?_⟩
  · simp [mem_newEvents, hj, eq_comm]
  · simp [mem_newEvents, hj, eq_comm]
  · simp [mem_newEvents, hj, he, hd]

/-- Settles O38: the new events are `newEvents` of the instruction, or the one diagnostic of a step without one. -/
theorem eventsAreAppendedAndNeverReadBack : Obligations.EventsAreAppendedAndNeverReadBack := by
  intro s t h
  obtain ⟨hr, ⟨ho, rfl⟩ | ⟨i, hi, rfl⟩ | ⟨he, op, hop, rfl⟩⟩ := step_eq_next h
  · obtain ⟨hput, htrace⟩ := events_of_report (not_dispatches_of_odd ho)
    exact ⟨[.diag (.fetchMisaligned s.pc)], rfl, fun _ => step_of_odd hr ho, hput, htrace, by simp [ho]⟩
  · refine ⟨s.newEvents i, after_events s i, fun es => ?_, events_of_dispatch hi⟩
    rw [step_of_dispatches_eq_after (s := { s with events := es }) hi, after_withEvents]
  · obtain ⟨hput, htrace⟩ := events_of_report (not_dispatches_of_undecoded hop)
    exact ⟨[.diag (.unknownOpcode op s.pc)], rfl, fun _ => step_of_undecoded hr he hop, hput, htrace, by simp [hop]⟩

end Sys2Proof.Machine

/-! # The invariant and the totals (60_exceptions.md R113, 45_fetch_execute.md R99)

While no HALT has been counted, a dispatched instruction adds 1 to its own counter, HALT's too, and one trace event of
its kind; a step that dispatches nothing adds neither. From this come the invariant, the totals and that no counter
decreases. -/

namespace Sys2Proof.Machine

variable {i : Instr} {s t : State}

/-! ## The counters of a dispatched instruction (10_state.md R26, R27) -/

theorem accounted_counter_self (s : State) (i : Instr) :
    (s.accounted i).counter i.mnemonic = if i = .halt then 1 else s.counter i.mnemonic + 1 :=
  counter_setCounter_self _ _ _

theorem accounted_counter_of_ne {k : Mnemonic} (h : k ≠ i.mnemonic) : (s.accounted i).counter k = s.counter k :=
  counter_setCounter_of_ne _ _ h

/-- Settles O37: only the accounting touches the counters, and it sets the one of the kind. -/
theorem onlyTheOwnCounterChanges : Obligations.OnlyTheOwnCounterChanges := by
  intro i s t h
  obtain ⟨e, o, -, rfl⟩ := acts_of_exec h
  simp only [commit_counter, commit_lat, commit_imem, apply_counter, apply_lat, apply_imem]
  exact ⟨fun k hk => accounted_counter_of_ne hk, accounted_counter_self s i, rfl, rfl⟩

/-- Before the first HALT, every instruction adds 1 to its own counter (44_system.md R91 for HALT). -/
theorem after_counter_of_no_halt (h : s.counter .halt = 0) (i : Instr) (k : Mnemonic) :
    (s.after i).counter k = s.counter k + if k = i.mnemonic then 1 else 0 := by
  rw [after_counter]
  by_cases hk : k = i.mnemonic
  · rw [hk, accounted_counter_self, if_pos rfl]
    split
    case isTrue hi => rw [hi, Instr.mnemonic, h]
    case isFalse => rfl
  · rw [accounted_counter_of_ne hk, if_neg hk, Nat.add_zero]

/-! ## The event streams -/

section
variable (es fs : List Event)

theorem puts_append : puts (es ++ fs) = puts es ++ puts fs := List.filterMap_append

theorem traces_append : traces (es ++ fs) = traces es ++ traces fs := List.filterMap_append

end

/-- A dispatched instruction has one trace event (45_fetch_execute.md R99). -/
theorem traces_newEvents (s : State) (i : Instr) : traces (s.newEvents i) = [i.mnemonic] := by
  have heffect : traces (s.effectOf i).events = [] := by cases s.effectOf i <;> rfl
  have hreport : traces ((s.endsWith i).elim [] Reason.report) = [] := by
    cases s.endsWith i with
    | none => rfl
    | some r => cases r <;> rfl
  rw [State.newEvents, ← List.singleton_append, traces_append, traces_append, heffect, hreport]
  rfl

/-- A dispatched PUT has one output, any other instruction none (44_system.md R92). -/
theorem puts_newEvents_length (s : State) (i : Instr) :
    (puts (s.newEvents i)).length = if Mnemonic.put = i.mnemonic then 1 else 0 := by
  have heffect : (puts (s.effectOf i).events).length = if Mnemonic.put = i.mnemonic then 1 else 0 := by
    cases i with
    | div | mod | lw | sw => simp only [State.effectOf]; split <;> rfl
    | _ => rfl
  have hreport : puts ((s.endsWith i).elim [] Reason.report) = [] := by
    cases s.endsWith i with
    | none => rfl
    | some r => cases r <;> rfl
  rw [State.newEvents, ← List.singleton_append, puts_append, puts_append, hreport, List.append_nil,
    List.length_append, heffect]
  exact Nat.zero_add _

/-! ## The invariant is kept -/

theorem apply_dmem_wf (h : Memory.wf s.dmem) (e : Effect) : Memory.wf (s.apply e).dmem := by
  cases e with
  | store a v => exact writeWord_wf h a v
  | nothing | write _ _ | output _ => exact h

theorem endsWith_ne_none (s : State) (i : Instr) : s.endsWith i ≠ some .none := by
  cases i <;> simp [State.endsWith]

/-- HALT always ends the run, so an instruction that does not is of another kind. -/
theorem halt_ne_mnemonic_of_continues (h : s.endsWith i = none) : Mnemonic.halt ≠ i.mnemonic := by
  cases i with
  | halt => cases h
  | _ => exact nofun

/-- After an instruction dispatched while RUNNING the reason is NONE exactly while RUNNING. -/
theorem after_reason_iff (hr : s.run = .running) (hreason : s.reason = .none) (i : Instr) :
    (s.after i).reason = .none ↔ (s.after i).run = .running := by
  cases h : s.endsWith i with
  | some r =>
    have hne : r ≠ .none := fun hr => endsWith_ne_none s i (hr ▸ h)
    simp [after_reason_of_ends h, after_run_of_ends h, hne]
  | none => simp [after_reason_of_continues h, after_run_of_continues h, hr, hreason]

/-- A dispatched instruction keeps the invariant. -/
theorem after_inv (hs : s.Inv) (hr : s.run = .running) (i : Instr) : (s.after i).Inv := by
  have hcounter := after_counter_of_no_halt (hs.halt hr) i
  refine ⟨?_, ?_, after_reason_iff hr (hs.reason.mpr hr) i, fun hrun => ?_, fun k => ?_, ?_⟩
  · rw [State.after, proceed_imem, apply_imem]
    exact hs.imem
  · rw [State.after, proceed_dmem]
    exact apply_dmem_wf (s := s.accounted i) hs.dmem _
  · cases h : s.endsWith i with
    | some r => simp [after_run_of_ends h] at hrun
    | none => rw [hcounter, hs.halt hr, if_neg (halt_ne_mnemonic_of_continues h)]
  · rw [hcounter, after_events, traces_append, traces_newEvents, List.count_append, List.count_singleton, hs.traced]
    simp only [beq_iff_eq, eq_comm (a := k)]
  · rw [hcounter, after_events, puts_append, List.length_append, puts_newEvents_length, hs.output]

/-- A step that adds a report and neither a counter nor a byte keeps the invariant. -/
theorem inv_of_report {d : Diag} (hs : s.Inv) (himem : t.imem = s.imem) (hdmem : t.dmem = s.dmem)
    (hcount : ∀ k, t.counter k = s.counter k) (hevents : t.events = s.events ++ [.diag d])
    (hreason : t.reason = .none ↔ t.run = .running) (hrun : t.run = .running → s.run = .running) : t.Inv := by
  refine ⟨himem ▸ hs.imem, hdmem ▸ hs.dmem, hreason, fun h => ?_, fun k => ?_, ?_⟩
  · rw [hcount, hs.halt (hrun h)]
  · rw [hcount, hs.traced, hevents, traces_append]
    simp [traces]
  · rw [hcount, ← hs.output, hevents, puts_append]
    simp [puts]

theorem step_inv (hs : s.Inv) (h : step s = .next t) : t.Inv := by
  obtain ⟨hr, ⟨-, rfl⟩ | ⟨i, -, rfl⟩ | ⟨-, op, -, rfl⟩⟩ := step_eq_next h
  · exact inv_of_report hs rfl rfl (fun _ => rfl) rfl (by simp) (fun _ => hr)
  · exact after_inv hs hr i
  · exact inv_of_report hs rfl rfl (fun _ => rfl) rfl hs.reason id

/-- Settles O43: a dispatched instruction keeps the invariant, and so do the two steps that only report. -/
theorem everyStepKeepsTheInvariant : Obligations.EveryStepKeepsTheInvariant := fun _ _ => step_inv

/-! ## The totals (60_exceptions.md R113) -/

/-- In the list of the 22 kinds each stands once. -/
theorem sum_all_single (m : Mnemonic) (d : Nat) : (Mnemonic.all.map fun k => if k = m then d else 0).sum = d := by
  cases m <;> simp [Mnemonic.all]

theorem sum_all_add_single (f : Mnemonic → Nat) (m : Mnemonic) (d : Nat) :
    (Mnemonic.all.map fun k => f k + if k = m then d else 0).sum = (Mnemonic.all.map f).sum + d := by
  rw [List.sum_map_add, sum_all_single]

/-- The kinds of a list, counted one by one, are its length. -/
theorem sum_all_count (l : List Mnemonic) : (Mnemonic.all.map fun k => l.count k).sum = l.length := by
  induction l with
  | nil => rfl
  | cons m l ih => simp only [List.count_cons, beq_iff_eq, eq_comm (a := m), sum_all_add_single, ih, List.length_cons]

/-- Settles O44: each counter is the number of the trace events of its kind. -/
theorem instructionTotalIsTheTraceLength : Obligations.InstructionTotalIsTheTraceLength := by
  intro s hs
  rw [← sum_all_count, State.instructions]
  exact congrArg List.sum (List.map_congr_left fun k _ => hs.traced k)

theorem after_instructions (h : s.counter .halt = 0) (i : Instr) : (s.after i).instructions = s.instructions + 1 := by
  unfold State.instructions
  rw [funext (after_counter_of_no_halt h i), sum_all_add_single]

theorem after_cycles (h : s.counter .halt = 0) (i : Instr) :
    (s.after i).cycles = s.cycles + cost s.lat i.mnemonic := by
  have hterm : ∀ k, (s.after i).counter k * cost (s.after i).lat k =
      s.counter k * cost s.lat k + if k = i.mnemonic then cost s.lat i.mnemonic else 0 := by
    intro k
    rw [after_counter_of_no_halt h, after_lat, Nat.add_mul]
    split
    case isTrue hk => rw [hk, Nat.one_mul]
    case isFalse => rw [Nat.zero_mul]
  unfold State.cycles
  rw [funext hterm, sum_all_add_single]

/-- A step that dispatches nothing leaves every counter and the latencies. -/
theorem step_counter_of_no_dispatch (h : step s = .next t) (hd : ∀ i, ¬ s.Dispatches i) :
    t.counter = s.counter ∧ t.lat = s.lat := by
  obtain ⟨-, ⟨-, rfl⟩ | ⟨i, hi, -⟩ | ⟨-, op, -, rfl⟩⟩ := step_eq_next h
  · exact ⟨rfl, rfl⟩
  · exact absurd hi (hd i)
  · exact ⟨rfl, rfl⟩

/-- Settles O45: the totals are sums over the counters, of which a dispatched instruction raises its own by 1. -/
theorem stepCostsTheInstructionsLatency : Obligations.StepCostsTheInstructionsLatency := by
  intro s t h hhalt
  refine ⟨fun i hi => ?_, fun hd => ?_⟩
  · obtain rfl : s.after i = t := by simpa [step_of_dispatches_eq_after hi] using h
    exact ⟨after_instructions hhalt i, after_cycles hhalt i⟩
  · obtain ⟨hcounter, hlat⟩ := step_counter_of_no_dispatch h hd
    exact ⟨by rw [State.instructions, hcounter, State.instructions],
      by rw [State.cycles, hcounter, hlat, State.cycles]⟩

/-! ## Counters over a run (10_state.md R27) -/

theorem step_counter_le (hs : s.Inv) (h : step s = .next t) (k : Mnemonic) : s.counter k ≤ t.counter k := by
  obtain ⟨hr, ⟨-, rfl⟩ | ⟨i, -, rfl⟩ | ⟨-, op, -, rfl⟩⟩ := step_eq_next h
  · exact le_rfl
  · rw [after_counter_of_no_halt (hs.halt hr)]
    exact Nat.le_add_right _ _
  · exact le_rfl

/-- Settles O46: over a run the invariant holds and no step lowers the counter. -/
theorem countersNeverDecrease : Obligations.CountersNeverDecrease := by
  intro n s k hs
  have hrun : (runFor n s).Inv ∧ s.counter k ≤ (runFor n s).counter k :=
    runFor_induction (P := fun t => t.Inv ∧ s.counter k ≤ t.counter k) ⟨hs, le_rfl⟩ fun _ _ _ hstep ⟨hinv, hle⟩ =>
      ⟨step_inv hinv hstep, hle.trans (step_counter_le hinv hstep k)⟩
  exact hrun.2

end Sys2Proof.Machine

/-! # The start and the result of a run (70_reset_and_hazards.md R121 to R123, 60_exceptions.md R114, R115)

A latency entry is accepted exactly when it is the configured number, or 1: `latencyEntry_eq_ok`. What starts is `boot`
of an image that fits and of such entries: `boot_eq_ok`. Two starts of one image differ in the latency table alone, and
so do their runs: `runFor_withLat`. -/

namespace Sys2Proof.Machine

variable {s : State}

/-! ## Latencies (10_state.md R28) -/

theorem except_bind_eq_ok {ε α β : Type} {x : Except ε α} {f : α → Except ε β} {b : β} :
    x >>= f = .ok b ↔ ∃ a, x = .ok a ∧ f a = .ok b := by
  cases x <;> simp [bind, Except.bind]

theorem latencyEntry_eq_ok {k : Mnemonic} {v : Option Int} {n : Nat} :
    latencyEntry k v = .ok n ↔ (n : Int) = v.getD 1 := by
  cases v with
  | none => simp [latencyEntry, eq_comm]
  | some v =>
    simp only [latencyEntry, Option.getD_some]
    split
    case isTrue hneg => simp only [reduceCtorEq, false_iff]; omega
    case isFalse hneg => simp only [Except.ok.injEq]; omega

/-- The entries of `l` are the configured ones, or 1 (70_reset_and_hazards.md R123). -/
structure Configures (c : LatencyConfig) (l : Latencies) : Prop where
  add : (l.add : Int) = c.add.getD 1
  sub : (l.sub : Int) = c.sub.getD 1
  and : (l.and : Int) = c.and.getD 1
  nor : (l.nor : Int) = c.nor.getD 1
  div : (l.div : Int) = c.div.getD 1
  mul : (l.mul : Int) = c.mul.getD 1
  mod : (l.mod : Int) = c.mod.getD 1
  exp : (l.exp : Int) = c.exp.getD 1

theorem latencyTable_eq_ok {c : LatencyConfig} {l : Latencies} : latencyTable c = .ok l ↔ Configures c l := by
  simp only [latencyTable, except_bind_eq_ok, latencyEntry_eq_ok]
  constructor
  · rintro ⟨_, h1, _, h2, _, h3, _, h4, _, h5, _, h6, _, h7, _, h8, hl⟩
    cases hl
    exact ⟨h1, h2, h3, h4, h5, h6, h7, h8⟩
  · rintro ⟨h1, h2, h3, h4, h5, h6, h7, h8⟩
    exact ⟨_, h1, _, h2, _, h3, _, h4, _, h5, _, h6, _, h7, _, h8, rfl⟩

/-- There is such a table exactly when no configured latency is negative (10_state.md R28, D15). -/
theorem exists_configures_iff (c : LatencyConfig) :
    (∃ l, Configures c l) ↔ ∀ v ∈ [c.add, c.sub, c.and, c.nor, c.div, c.mul, c.mod, c.exp], 0 ≤ v.getD 1 := by
  simp only [List.forall_mem_cons, List.not_mem_nil, false_implies, implies_true, and_true]
  constructor
  · rintro ⟨l, h⟩
    exact ⟨h.add ▸ Int.natCast_nonneg _, h.sub ▸ Int.natCast_nonneg _, h.and ▸ Int.natCast_nonneg _,
      h.nor ▸ Int.natCast_nonneg _, h.div ▸ Int.natCast_nonneg _, h.mul ▸ Int.natCast_nonneg _,
      h.mod ▸ Int.natCast_nonneg _, h.exp ▸ Int.natCast_nonneg _⟩
  · rintro ⟨h1, h2, h3, h4, h5, h6, h7, h8⟩
    exact ⟨⟨_, _, _, _, _, _, _, _⟩, ⟨Int.toNat_of_nonneg h1, Int.toNat_of_nonneg h2, Int.toNat_of_nonneg h3,
      Int.toNat_of_nonneg h4, Int.toNat_of_nonneg h5, Int.toNat_of_nonneg h6, Int.toNat_of_nonneg h7,
      Int.toNat_of_nonneg h8⟩⟩

/-! ## The start of a run -/

/-- What `boot` starts, said once. -/
theorem boot_eq_ok {image : List Byte} {c : LatencyConfig} :
    boot image c = .ok s ↔
      image.length ≤ Config.imemSize ∧
        ∃ l, Configures c l ∧ s = { State.reset with imem := Memory.ofBytes 0 image, lat := l } := by
  simp only [← latencyTable_eq_ok]
  unfold boot
  split
  case isTrue hlen => simp [Nat.not_le.mpr hlen]
  case isFalse hlen =>
    cases h : latencyTable c with
    | error e => simp
    | ok l => simp [Nat.not_lt.mp hlen, eq_comm]

/-- Bytes laid out from an address read as laid out, and 0x00 elsewhere (70_reset_and_hazards.md R122). -/
theorem read_ofBytes (bs : List Byte) (a b : Nat) :
    Memory.read (Memory.ofBytes a bs) b = if a ≤ b then bs.getD (b - a) 0 else 0 := by
  induction bs generalizing a with
  | nil => simp [Memory.ofBytes, Memory.read]
  | cons v bs ih =>
    have hskip : a ≠ b → Memory.read (Memory.ofBytes (a + 1) bs) b =
        if a ≤ b then (v :: bs).getD (b - a) 0 else 0 := by
      intro hne
      rw [ih]
      by_cases hle : a + 1 ≤ b
      · rw [if_pos hle, if_pos (by omega), show b - a = b - (a + 1) + 1 by omega, List.getD_cons_succ]
      · rw [if_neg hle, if_neg (by omega)]
    unfold Memory.ofBytes
    by_cases hab : a = b
    · subst hab
      split
      case isTrue hv => simp [ih, hv]
      case isFalse => simp [Memory.read]
    · split
      · exact hskip hab
      · rw [Memory.read, if_neg hab]
        exact hskip hab

/-- Settles O48: the fields of the state that `boot_eq_ok` gives. -/
theorem bootPlacesTheImageAndTheLatencies : Obligations.BootPlacesTheImageAndTheLatencies := by
  intro image c
  refine ⟨?_, fun s hs => ?_⟩
  · rw [← exists_configures_iff]
    simp only [boot_eq_ok]
    exact ⟨fun ⟨_, hlen, l, hl, _⟩ => ⟨hlen, l, hl⟩, fun ⟨hlen, l, hl⟩ => ⟨_, hlen, l, hl, rfl⟩⟩
  · obtain ⟨-, l, hl, rfl⟩ := boot_eq_ok.mp hs
    exact ⟨fun a => by simp [read_ofBytes], hl.add, hl.sub, hl.and, hl.nor, hl.div, hl.mul, hl.mod, hl.exp, rfl⟩

theorem counter_reset (k : Mnemonic) : State.reset.counter k = 0 := by
  simp [State.counter, State.reset]

/-- Settles O42: the image that fits is in canonical form, nothing is counted and nothing has happened. -/
theorem everyStartHasTheInvariant : Obligations.EveryStartHasTheInvariant := by
  intro image c s hs
  obtain ⟨hlen, l, -, rfl⟩ := boot_eq_ok.mp hs
  exact ⟨ofBytes_wf image hlen, reset_memories_wf.2, ⟨fun _ => rfl, fun _ => rfl⟩, fun _ => counter_reset .halt, counter_reset,
    (counter_reset .put).symm⟩

/-- Settles O41: the reset state is the start with the empty image and no configuration. -/
theorem resetHasTheInvariant : Obligations.ResetHasTheInvariant := everyStartHasTheInvariant [] {} State.reset rfl

/-- Settles O47: field by field. -/
theorem resetValuesAreTheSpecs : Obligations.ResetValuesAreTheSpecs := by
  refine ⟨fun r => ?_, rfl, fun _ => rfl, fun _ => rfl, counter_reset, fun k => ?_, rfl, rfl, rfl⟩
  · simp [State.reg, State.reset]
  · cases k <;> rfl

/-! ## The output record -/

/-- The record of a TERMINATED state (60_exceptions.md R114). -/
theorem outputRecord_of_terminated (h : s.run = .terminated) :
    s.outputRecord =
      some { regs := s.signedRegs, count := s.count, instructions := s.instructions, cycles := s.cycles } := by
  simp [State.outputRecord, h]

theorem run_of_outputRecord {p : OutputRecord} (h : s.outputRecord = some p) : s.run = .terminated := by
  cases hr : s.run with
  | running => simp [State.outputRecord, hr] at h
  | terminated => rfl

theorem recordOfRun_eq_ok {n : Nat} {image : List Byte} {c : LatencyConfig} {p : OutputRecord} :
    recordOfRun n image c = .ok (some p) ↔ ∃ s, boot image c = .ok s ∧ (runFor n s).outputRecord = some p := by
  unfold recordOfRun
  cases boot image c <;> simp [Except.map]

/-- A run that is over after `n` steps is the same after more. -/
theorem runFor_eq_of_terminated {n m : Nat} (hn : (runFor n s).run = .terminated)
    (hm : (runFor m s).run = .terminated) : runFor n s = runFor m s := by
  rcases Nat.le_total n m with h | h
  · exact (terminatedStateIsFinal n m s hn h).symm
  · exact terminatedStateIsFinal m n s hm h

/-- Settles O49: both records are of the one final state. -/
theorem runHasOneOutputRecord : Obligations.RunHasOneOutputRecord := by
  intro n m image c
  refine ⟨fun p q hp hq => ?_, fun s hs hr => ?_⟩
  · obtain ⟨s, hs, hp⟩ := recordOfRun_eq_ok.mp hp
    obtain ⟨s', hs', hq⟩ := recordOfRun_eq_ok.mp hq
    obtain rfl : s = s' := Except.ok.inj (hs.symm.trans hs')
    rw [runFor_eq_of_terminated (run_of_outputRecord hp) (run_of_outputRecord hq)] at hp
    exact Option.some.inj (hp.symm.trans hq)
  · exact ⟨_, recordOfRun_eq_ok.mpr ⟨s, hs, outputRecord_of_terminated hr⟩, signedRegs_getElem _⟩

theorem running_or_terminated (s : State) : s.run = .running ∨ s.run = .terminated := by
  cases s.run <;> simp

/-- Another latency table over a run is the same one at its end and nothing else. -/
theorem runFor_withLat (n : Nat) (s : State) (l : Latencies) :
    runFor n { s with lat := l } = { runFor n s with lat := l } := by
  induction n generalizing s with
  | zero => rfl
  | succ n ih =>
    rcases running_or_terminated s with hr | hr
    · obtain ⟨t, ht⟩ := exists_step_of_running hr
      rw [runFor_succ_of_next n ht, runFor_succ_of_next n (step_withLat ht l), ih]
    · rw [runFor_of_terminated _ hr, runFor_of_terminated (s := { s with lat := l }) _ hr]

/-- Of the record only the cycle total looks at the latency table. -/
theorem outputRecord_withLat {p : OutputRecord} (h : s.outputRecord = some p) (l : Latencies) :
    ∃ cyc, State.outputRecord { s with lat := l } = some { p with cycles := cyc } := by
  have hr := run_of_outputRecord h
  rw [outputRecord_of_terminated hr] at h
  obtain rfl := Option.some.inj h
  exact ⟨_, outputRecord_of_terminated (s := { s with lat := l }) hr⟩

/-- Two starts of one image differ in the latency table alone. -/
theorem boot_eq_withLat {image : List Byte} {c d : LatencyConfig} {s' : State} (hs : boot image c = .ok s)
    (hs' : boot image d = .ok s') : ∃ l, s' = { s with lat := l } := by
  obtain ⟨-, l, -, rfl⟩ := boot_eq_ok.mp hs
  obtain ⟨-, l', -, rfl⟩ := boot_eq_ok.mp hs'
  exact ⟨l', rfl⟩

/-- Settles O50: the two starts differ in the latency table, and so do the final states. -/
theorem latenciesChangeOnlyTheCycleTotal : Obligations.LatenciesChangeOnlyTheCycleTotal := by
  rintro n image c d p hp ⟨s', hs'⟩
  obtain ⟨s, hs, hp⟩ := recordOfRun_eq_ok.mp hp
  obtain ⟨l, rfl⟩ := boot_eq_withLat hs hs'
  obtain ⟨cyc, hcyc⟩ := outputRecord_withLat hp l
  exact ⟨cyc, recordOfRun_eq_ok.mpr ⟨_, hs', runFor_withLat n s l ▸ hcyc⟩⟩

end Sys2Proof.Machine
